-- ==== Sys2Proof/Word.lean ====
section
/-! DEFINITION. The word types of the machine (00_scope.md R7, R8): every value is unsigned, and the only extension is by
zeros (R9). -/

namespace Sys2Proof

/-- An 8-bit value: a general register, a timer, a byte of memory (R21, R27, R40). -/
abbrev Byte := BitVec 8

/-- A 16-bit value: the opcode, `I`, `PC`, a return address (R23, R24, R26, R60). -/
abbrev Word := BitVec 16

/-- A 12-bit address operand, the field `nnn` (R61). -/
abbrev Addr12 := BitVec 12

end Sys2Proof
end

