-- ==== Sys2Proof/Config.lean ====
section
/-! DEFINITION. What the spec fixes once for the machine (00_scope.md R7): the given sizes, the three OPEN parameters, and
the free value that stands for the pseudo-random source (10_state.md R31). -/

namespace Sys2Proof

/-- `MEM_SIZE`: 4096 bytes (R7, R40). -/
abbrev memSize : Nat := 4096

/-- `PROG_BASE` = 0x200 (R7, R42). -/
abbrev progBase : Nat := 0x200

/-- 16 glyphs of `GLYPH_SIZE` = 5 bytes: 80 bytes of font (R7, R43). -/
abbrev fontSize : Nat := 80

/-- The three OPEN parameters of R7, which "the model takes as an argument". They are constant while a machine runs. -/
structure Config where
  /-- `STACK_DEPTH`: how many return addresses the call stack holds (R7, R26). -/
  stackDepth : Nat
  /-- `FONT_BASE`: the address of the first glyph byte (R7, R41). -/
  fontBase : Nat
  /-- `FONT_DATA`: the font's 80 bytes, glyph `d` at offset `5 * d` (R7, R43). -/
  fontData : Vector Byte fontSize
  deriving DecidableEq, Repr

/-- The constraints the spec puts on the OPEN parameters: `STACK_DEPTH` is a positive integer (92_eei_decisions.md D4) and
`FONT_BASE + 80 <= PROG_BASE` (R7, R41). -/
def Config.valid (c : Config) : Bool :=
  decide (0 < c.stackDepth) && decide (c.fontBase + fontSize ≤ progBase)

/-- FREE VALUE: the byte the pseudo-random source delivers at its `n`-th draw, "under no law" (R31). No body: nothing can
be proved of it but what holds of every sequence of bytes. Assumption log 6. -/
opaque Config.randomByte : Nat → Byte

end Sys2Proof
end

