-- ==== Sys2Proof/Syntax.lean ====
section
/-! DEFINITION. The instruction set as syntax: one constructor per row of spec/opcode_table.json (30_encoding.md R66, and
R67 for the no-operation). The operands are the fields the table gives the row; bits a row's decoder does not examine
(R68) are no operand. -/

namespace Sys2Proof

/-- A register number: field `x` or `y` (R61). -/
abbrev Reg := Fin 16

/-- The 34 instructions of R66 in its order, and the no-operation of R67. -/
inductive Instr where
  /-- `00E0`, CLS. -/
  | cls
  /-- `00EE`, RET. -/
  | ret
  /-- `1nnn`, JP nnn. -/
  | jp (nnn : Addr12)
  /-- `2nnn`, CALL nnn. -/
  | call (nnn : Addr12)
  /-- `3xkk`, SE Vx, kk. -/
  | seImm (x : Reg) (kk : Byte)
  /-- `4xkk`, SNE Vx, kk. -/
  | sneImm (x : Reg) (kk : Byte)
  /-- `5xy0`, SE Vx, Vy. -/
  | seReg (x y : Reg)
  /-- `9xy0`, SNE Vx, Vy. -/
  | sneReg (x y : Reg)
  /-- `6xkk`, LD Vx, kk. -/
  | ldImm (x : Reg) (kk : Byte)
  /-- `7xkk`, ADD Vx, kk. -/
  | addImm (x : Reg) (kk : Byte)
  /-- `8xy0`, LD Vx, Vy. -/
  | ldReg (x y : Reg)
  /-- `8xy1`, OR Vx, Vy. -/
  | orReg (x y : Reg)
  /-- `8xy2`, AND Vx, Vy. -/
  | andReg (x y : Reg)
  /-- `8xy3`, XOR Vx, Vy. -/
  | xorReg (x y : Reg)
  /-- `8xy4`, ADD Vx, Vy. -/
  | addReg (x y : Reg)
  /-- `8xy5`, SUB Vx, Vy. -/
  | subReg (x y : Reg)
  /-- `8xy6`, SHR Vx; field `y` is decoded and not used (R109). -/
  | shr (x y : Reg)
  /-- `8xy7`, SUBN Vx, Vy. -/
  | subnReg (x y : Reg)
  /-- `8xyE`, SHL Vx; field `y` is decoded and not used (R111). -/
  | shl (x y : Reg)
  /-- `Annn`, LD I, nnn. -/
  | ldI (nnn : Addr12)
  /-- `Bnnn`, JP V0, nnn. -/
  | jpV0 (nnn : Addr12)
  /-- `Cxkk`, RND Vx, kk. -/
  | rnd (x : Reg) (kk : Byte)
  /-- `Dxyn`, DRW Vx, Vy, n: `n` is a row count 0..15. -/
  | drw (x y : Reg) (n : Fin 16)
  /-- `Ex9E`, SKP Vx. -/
  | skp (x : Reg)
  /-- `ExA1`, SKNP Vx. -/
  | sknp (x : Reg)
  /-- `Fx07`, LD Vx, DT. -/
  | ldVxDT (x : Reg)
  /-- `Fx15`, LD DT, Vx. -/
  | ldDT (x : Reg)
  /-- `Fx18`, LD ST, Vx. -/
  | ldST (x : Reg)
  /-- `Fx0A`, LD Vx, K. -/
  | ldVxKey (x : Reg)
  /-- `Fx1E`, ADD I, Vx. -/
  | addI (x : Reg)
  /-- `Fx29`, LD F, Vx. -/
  | ldF (x : Reg)
  /-- `Fx33`, LD B, Vx. -/
  | ldB (x : Reg)
  /-- `Fx55`, LD [I], Vx: `x` is the index of the last register stored (R119). -/
  | storeRegs (x : Reg)
  /-- `Fx65`, LD Vx, [I]: `x` is the index of the last register loaded (R120). -/
  | loadRegs (x : Reg)
  /-- NOP, every unmapped word (R67, R86). There is no canonical one, so the word itself is kept. -/
  | nop (word : Word)
  deriving DecidableEq, Repr

/-- The mnemonic of the instruction's row, as spec/opcode_table.json spells it: a label (R71). -/
def Instr.mnemonic : Instr → String
  | .cls => "CLS"
  | .ret => "RET"
  | .jp _ => "JP_nnn"
  | .call _ => "CALL_nnn"
  | .seImm _ _ => "SE_Vx__kk"
  | .sneImm _ _ => "SNE_Vx__kk"
  | .seReg _ _ => "SE_Vx__Vy"
  | .sneReg _ _ => "SNE_Vx__Vy"
  | .ldImm _ _ => "LD_Vx__kk"
  | .addImm _ _ => "ADD_Vx__kk"
  | .ldReg _ _ => "LD_Vx__Vy"
  | .orReg _ _ => "OR_Vx__Vy"
  | .andReg _ _ => "AND_Vx__Vy"
  | .xorReg _ _ => "XOR_Vx__Vy"
  | .addReg _ _ => "ADD_Vx__Vy"
  | .subReg _ _ => "SUB_Vx__Vy"
  | .shr _ _ => "SHR_Vx"
  | .subnReg _ _ => "SUBN_Vx__Vy"
  | .shl _ _ => "SHL_Vx"
  | .ldI _ => "LD_I__nnn"
  | .jpV0 _ => "JP_V0__nnn"
  | .rnd _ _ => "RND_Vx__kk"
  | .drw _ _ _ => "DRW_Vx__Vy__n"
  | .skp _ => "SKP_Vx"
  | .sknp _ => "SKNP_Vx"
  | .ldVxDT _ => "LD_Vx__DT"
  | .ldDT _ => "LD_DT__Vx"
  | .ldST _ => "LD_ST__Vx"
  | .ldVxKey _ => "LD_Vx__K"
  | .addI _ => "ADD_I__Vx"
  | .ldF _ => "LD_F__Vx"
  | .ldB _ => "LD_B__Vx"
  | .storeRegs _ => "LD__I___Vx"
  | .loadRegs _ => "LD_Vx___I"
  | .nop _ => "NOP"

end Sys2Proof
end

