-- ==== Sys2Proof/WellFormed.lean ====
section
/-! DEFINITION. When a term of `Instr` is an instruction of the machine. The operand types already bound every field
(R61), so one check is left: a no-operation carries an unmapped word (R67). -/

namespace Sys2Proof

/-- The unmapped words, read off R67's table: families 0, 8, E and F with a secondary key that names no instruction. -/
def unmapped (w : Word) : Bool :=
  let family := (w.extractLsb' 12 4).toNat
  let low4 := (w.extractLsb' 0 4).toNat
  let low8 := (w.extractLsb' 0 8).toNat
  if family = 0x0 then !([0x0, 0xE].contains low4)
  else if family = 0x8 then [0x8, 0x9, 0xA, 0xB, 0xC, 0xD, 0xF].contains low4
  else if family = 0xE then !([0x1, 0xE].contains low4)
  else if family = 0xF then !([0x07, 0x0A, 0x15, 0x18, 0x1E, 0x29, 0x33, 0x55, 0x65].contains low8)
  else false

/-- A well-formed instruction: any of the 34, or the no-operation of an unmapped word (R66, R67). -/
def Instr.wellFormed : Instr → Bool
  | .nop w => unmapped w
  | .cls => true
  | .ret => true
  | .jp _ => true
  | .call _ => true
  | .seImm _ _ => true
  | .sneImm _ _ => true
  | .seReg _ _ => true
  | .sneReg _ _ => true
  | .ldImm _ _ => true
  | .addImm _ _ => true
  | .ldReg _ _ => true
  | .orReg _ _ => true
  | .andReg _ _ => true
  | .xorReg _ _ => true
  | .addReg _ _ => true
  | .subReg _ _ => true
  | .shr _ _ => true
  | .subnReg _ _ => true
  | .shl _ _ => true
  | .ldI _ => true
  | .jpV0 _ => true
  | .rnd _ _ => true
  | .drw _ _ _ => true
  | .skp _ => true
  | .sknp _ => true
  | .ldVxDT _ => true
  | .ldDT _ => true
  | .ldST _ => true
  | .ldVxKey _ => true
  | .addI _ => true
  | .ldF _ => true
  | .ldB _ => true
  | .storeRegs _ => true
  | .loadRegs _ => true

end Sys2Proof
end

