-- ==== Sys2Proof/Decode.lean ====
section
/-! DEFINITION. Decoding (30_encoding.md R60 to R70), total on the 65536 words, and after it the encoder. A list of fewer
than two bytes is the only thing the decoder rejects, by name. -/

namespace Sys2Proof

/-- Field `op`, bits 15..12, the primary dispatch key (R61, R64). -/
def opOf (w : Word) : Nat := (w.extractLsb' 12 4).toNat

/-- Field `x`, bits 11..8 (R61). -/
def xOf (w : Word) : Reg := (w.extractLsb' 8 4).toFin

/-- Field `y`, bits 7..4 (R61). -/
def yOf (w : Word) : Reg := (w.extractLsb' 4 4).toFin

/-- Field `n`, bits 3..0 (R61). -/
def nOf (w : Word) : Fin 16 := (w.extractLsb' 0 4).toFin

/-- Field `kk`, bits 7..0 (R61). -/
def kkOf (w : Word) : Byte := w.extractLsb' 0 8

/-- Field `nnn`, bits 11..0 (R61). -/
def nnnOf (w : Word) : Addr12 := w.extractLsb' 0 12

/-- Family 0: the low 4 bits decide (R64, R65). -/
def decodeFamily0 (w : Word) : Instr :=
  match (nOf w).val with
  | 0x0 => .cls
  | 0xE => .ret
  | _ => .nop w

/-- Family 8: the low 4 bits decide (R64, R65). -/
def decodeFamily8 (w : Word) : Instr :=
  match (nOf w).val with
  | 0x0 => .ldReg (xOf w) (yOf w)
  | 0x1 => .orReg (xOf w) (yOf w)
  | 0x2 => .andReg (xOf w) (yOf w)
  | 0x3 => .xorReg (xOf w) (yOf w)
  | 0x4 => .addReg (xOf w) (yOf w)
  | 0x5 => .subReg (xOf w) (yOf w)
  | 0x6 => .shr (xOf w) (yOf w)
  | 0x7 => .subnReg (xOf w) (yOf w)
  | 0xE => .shl (xOf w) (yOf w)
  | _ => .nop w

/-- Family E: the low 4 bits decide (R64, R65). -/
def decodeFamilyE (w : Word) : Instr :=
  match (nOf w).val with
  | 0x1 => .sknp (xOf w)
  | 0xE => .skp (xOf w)
  | _ => .nop w

/-- Family F: the low 8 bits decide (R64, R65). -/
def decodeFamilyF (w : Word) : Instr :=
  match (kkOf w).toNat with
  | 0x07 => .ldVxDT (xOf w)
  | 0x0A => .ldVxKey (xOf w)
  | 0x15 => .ldDT (xOf w)
  | 0x18 => .ldST (xOf w)
  | 0x1E => .addI (xOf w)
  | 0x29 => .ldF (xOf w)
  | 0x33 => .ldB (xOf w)
  | 0x55 => .storeRegs (xOf w)
  | 0x65 => .loadRegs (xOf w)
  | _ => .nop w

/-- The decode function of R65, "total on all 65536 words": by dispatch key, so alias words execute as the instruction
their key selects (R68, decision D9, assumption log 10). -/
def decodeWord (w : Word) : Instr :=
  match opOf w with
  | 0x0 => decodeFamily0 w
  | 0x1 => .jp (nnnOf w)
  | 0x2 => .call (nnnOf w)
  | 0x3 => .seImm (xOf w) (kkOf w)
  | 0x4 => .sneImm (xOf w) (kkOf w)
  | 0x5 => .seReg (xOf w) (yOf w)
  | 0x6 => .ldImm (xOf w) (kkOf w)
  | 0x7 => .addImm (xOf w) (kkOf w)
  | 0x8 => decodeFamily8 w
  | 0x9 => .sneReg (xOf w) (yOf w)
  | 0xA => .ldI (nnnOf w)
  | 0xB => .jpV0 (nnnOf w)
  | 0xC => .rnd (xOf w) (kkOf w)
  | 0xD => .drw (xOf w) (yOf w) (nOf w)
  | 0xE => decodeFamilyE w
  | _ => decodeFamilyF w

/-- The opcode of two consecutive bytes, high byte first (20_memory.md R44). -/
def wordOfBytes (hi lo : Byte) : Word := hi ++ lo

/-- Why a list of bytes is rejected. Raised by `decodeBytes` alone; safe: nothing runs. -/
inductive DecodeError where
  /-- fewer than the two bytes of an opcode (R60) -/
  | truncated
  deriving DecidableEq, Repr

/-- Decode the first instruction of a list of bytes and give the bytes after it: every instruction is two bytes (R60). -/
def decodeBytes : List Byte → Except DecodeError (Instr × List Byte)
  | hi :: lo :: rest => .ok (decodeWord (wordOfBytes hi lo), rest)
  | [_] => .error .truncated
  | [] => .error .truncated

/-- The two bytes of a word as the machine stores it: the high byte at the lower address (R44). -/
def bytesOfWord (w : Word) : List Byte := [w.extractLsb' 8 8, w.extractLsb' 0 8]

/-- The first word of a row of spec/opcode_table.json, whose bits the table numbers as those of one 16-bit word. -/
def tableWord (nbits w : Nat) : Word := BitVec.ofNat 16 (w % 2 ^ nbits)

/-- What the decoder reads from an instruction whose bits are `w`, laid out in memory as the hardware stores it. -/
def decodeTableWord (nbits w : Nat) : Option Instr :=
  match decodeBytes (bytesOfWord (tableWord nbits w)) with
  | .ok (i, _) => some i
  | .error _ => none

/-! The encoder, written from the canonical patterns of R66 in the formats of R62. -/

/-- Format NNN: `op | nnn`. -/
def formatNNN (op : Nat) (nnn : Addr12) : Word := BitVec.ofNat 4 op ++ nnn

/-- Format XKK: `op | x | kk`. -/
def formatXKK (op : Nat) (x : Reg) (kk : Byte) : Word :=
  (BitVec.ofNat 4 op ++ BitVec.ofNat 4 x.val : BitVec 8) ++ kk

/-- Format XYN: `op | x | y | n`. -/
def formatXYN (op : Nat) (x y : Reg) (n : Nat) : Word :=
  (BitVec.ofNat 4 op ++ BitVec.ofNat 4 x.val : BitVec 8) ++ (BitVec.ofNat 4 y.val ++ BitVec.ofNat 4 n : BitVec 8)

/-- Format XSS: `op | x | sub`. -/
def formatXSS (op : Nat) (x : Reg) (sub : Nat) : Word := formatXKK op x (BitVec.ofNat 8 sub)

/-- The canonical word of an instruction (R66); a no-operation has no canonical word and keeps its own (R86). -/
def encode : Instr → Word
  | .cls => 0x00E0
  | .ret => 0x00EE
  | .jp nnn => formatNNN 0x1 nnn
  | .call nnn => formatNNN 0x2 nnn
  | .seImm x kk => formatXKK 0x3 x kk
  | .sneImm x kk => formatXKK 0x4 x kk
  | .seReg x y => formatXYN 0x5 x y 0x0
  | .sneReg x y => formatXYN 0x9 x y 0x0
  | .ldImm x kk => formatXKK 0x6 x kk
  | .addImm x kk => formatXKK 0x7 x kk
  | .ldReg x y => formatXYN 0x8 x y 0x0
  | .orReg x y => formatXYN 0x8 x y 0x1
  | .andReg x y => formatXYN 0x8 x y 0x2
  | .xorReg x y => formatXYN 0x8 x y 0x3
  | .addReg x y => formatXYN 0x8 x y 0x4
  | .subReg x y => formatXYN 0x8 x y 0x5
  | .shr x y => formatXYN 0x8 x y 0x6
  | .subnReg x y => formatXYN 0x8 x y 0x7
  | .shl x y => formatXYN 0x8 x y 0xE
  | .ldI nnn => formatNNN 0xA nnn
  | .jpV0 nnn => formatNNN 0xB nnn
  | .rnd x kk => formatXKK 0xC x kk
  | .drw x y n => formatXYN 0xD x y n.val
  | .skp x => formatXSS 0xE x 0x9E
  | .sknp x => formatXSS 0xE x 0xA1
  | .ldVxDT x => formatXSS 0xF x 0x07
  | .ldDT x => formatXSS 0xF x 0x15
  | .ldST x => formatXSS 0xF x 0x18
  | .ldVxKey x => formatXSS 0xF x 0x0A
  | .addI x => formatXSS 0xF x 0x1E
  | .ldF x => formatXSS 0xF x 0x29
  | .ldB x => formatXSS 0xF x 0x33
  | .storeRegs x => formatXSS 0xF x 0x55
  | .loadRegs x => formatXSS 0xF x 0x65
  | .nop w => w

/-- The bytes of an instruction in memory, high byte first (R44). -/
def encodeBytes (i : Instr) : List Byte := bytesOfWord (encode i)

/-! The opcode map of R66 as data, beside the decode function of R65. -/

/-- A row of R66: a word `w` decodes to it when `w &&& mask = key`. -/
structure OpcodeRow where
  /-- the row's mnemonic in spec/opcode_table.json -/
  mnemonic : String
  /-- the bits the decoder examines -/
  mask : Word
  /-- their value (the table's `match`) -/
  key : Word
  deriving DecidableEq, Repr

/-- Does the word select the row (R66)? -/
def OpcodeRow.selects (r : OpcodeRow) (w : Word) : Bool := w &&& r.mask == r.key

/-- Rows 1 to 10 of R66. -/
def opcodeRows1to10 : List OpcodeRow :=
  [⟨"CLS", 0xF00F, 0x0000⟩, ⟨"RET", 0xF00F, 0x000E⟩, ⟨"JP_nnn", 0xF000, 0x1000⟩, ⟨"CALL_nnn", 0xF000, 0x2000⟩,
   ⟨"SE_Vx__kk", 0xF000, 0x3000⟩, ⟨"SNE_Vx__kk", 0xF000, 0x4000⟩, ⟨"SE_Vx__Vy", 0xF000, 0x5000⟩,
   ⟨"SNE_Vx__Vy", 0xF000, 0x9000⟩, ⟨"LD_Vx__kk", 0xF000, 0x6000⟩, ⟨"ADD_Vx__kk", 0xF000, 0x7000⟩]

/-- Rows 11 to 19 of R66, family 8. -/
def opcodeRows11to19 : List OpcodeRow :=
  [⟨"LD_Vx__Vy", 0xF00F, 0x8000⟩, ⟨"OR_Vx__Vy", 0xF00F, 0x8001⟩, ⟨"AND_Vx__Vy", 0xF00F, 0x8002⟩,
   ⟨"XOR_Vx__Vy", 0xF00F, 0x8003⟩, ⟨"ADD_Vx__Vy", 0xF00F, 0x8004⟩, ⟨"SUB_Vx__Vy", 0xF00F, 0x8005⟩,
   ⟨"SHR_Vx", 0xF00F, 0x8006⟩, ⟨"SUBN_Vx__Vy", 0xF00F, 0x8007⟩, ⟨"SHL_Vx", 0xF00F, 0x800E⟩]

/-- Rows 20 to 25 of R66. -/
def opcodeRows20to25 : List OpcodeRow :=
  [⟨"LD_I__nnn", 0xF000, 0xA000⟩, ⟨"JP_V0__nnn", 0xF000, 0xB000⟩, ⟨"RND_Vx__kk", 0xF000, 0xC000⟩,
   ⟨"DRW_Vx__Vy__n", 0xF000, 0xD000⟩, ⟨"SKP_Vx", 0xF00F, 0xE00E⟩, ⟨"SKNP_Vx", 0xF00F, 0xE001⟩]

/-- Rows 26 to 34 of R66, family F. -/
def opcodeRows26to34 : List OpcodeRow :=
  [⟨"LD_Vx__DT", 0xF0FF, 0xF007⟩, ⟨"LD_DT__Vx", 0xF0FF, 0xF015⟩, ⟨"LD_ST__Vx", 0xF0FF, 0xF018⟩,
   ⟨"LD_Vx__K", 0xF0FF, 0xF00A⟩, ⟨"ADD_I__Vx", 0xF0FF, 0xF01E⟩, ⟨"LD_F__Vx", 0xF0FF, 0xF029⟩,
   ⟨"LD_B__Vx", 0xF0FF, 0xF033⟩, ⟨"LD__I___Vx", 0xF0FF, 0xF055⟩, ⟨"LD_Vx___I", 0xF0FF, 0xF065⟩]

/-- The 34 rows of R66. -/
def opcodeTable : List OpcodeRow :=
  opcodeRows1to10 ++ opcodeRows11to19 ++ opcodeRows20to25 ++ opcodeRows26to34

/-- The alias words of R68: they have an instruction's dispatch key and are not its canonical word. -/
def isAlias (w : Word) : Bool :=
  let low4 := (nOf w).val
  match opOf w with
  | 0x0 => (low4 == 0x0 && w != 0x00E0) || (low4 == 0xE && w != 0x00EE)
  | 0x5 => low4 != 0x0
  | 0x9 => low4 != 0x0
  | 0xE => (low4 == 0xE && (yOf w).val != 0x9) || (low4 == 0x1 && (yOf w).val != 0xA)
  | _ => false

end Sys2Proof
end

