-- ==== Sys2Proof/Machine/Defaults.lean ====
section
/-! DEFINITION. The defaults of the three OPEN parameters (00_scope.md R7): what the spec's test vectors use, marked there
"from general knowledge, not in source". Only `State.reset` takes them; PRESUMED, assumption logs 2, 3 and 4. -/

namespace Sys2Proof

/-- Glyphs 0 to 3 of the default font table (20_memory.md R43). -/
def fontGlyphs0to3 : List Byte :=
  [0xF0, 0x90, 0x90, 0x90, 0xF0, 0x20, 0x60, 0x20, 0x20, 0x70,
   0xF0, 0x10, 0xF0, 0x80, 0xF0, 0xF0, 0x10, 0xF0, 0x10, 0xF0]

/-- Glyphs 4 to 7 (R43). -/
def fontGlyphs4to7 : List Byte :=
  [0x90, 0x90, 0xF0, 0x10, 0x10, 0xF0, 0x80, 0xF0, 0x10, 0xF0,
   0xF0, 0x80, 0xF0, 0x90, 0xF0, 0xF0, 0x10, 0x20, 0x40, 0x40]

/-- Glyphs 8 to B (R43). -/
def fontGlyphs8toB : List Byte :=
  [0xF0, 0x90, 0xF0, 0x90, 0xF0, 0xF0, 0x90, 0xF0, 0x10, 0xF0,
   0xF0, 0x90, 0xF0, 0x90, 0x90, 0xE0, 0x90, 0xE0, 0x90, 0xE0]

/-- Glyphs C to F (R43). -/
def fontGlyphsCtoF : List Byte :=
  [0xF0, 0x80, 0x80, 0x80, 0xF0, 0xE0, 0x90, 0x90, 0x90, 0xE0,
   0xF0, 0x80, 0xF0, 0x80, 0xF0, 0xF0, 0x80, 0xF0, 0x80, 0x80]

/-- The default `FONT_DATA`: 16 glyphs of 5 bytes (R43). -/
def defaultFontData : Vector Byte fontSize :=
  ⟨(fontGlyphs0to3 ++ fontGlyphs4to7 ++ fontGlyphs8toB ++ fontGlyphsCtoF).toArray, rfl⟩

/-- The defaults of R7: `STACK_DEPTH` = 16, `FONT_BASE` = 0x050, the table of R43. -/
def defaultConfig : Config where
  stackDepth := 16
  fontBase := 0x050
  fontData := defaultFontData

end Sys2Proof
end

