-- ==== Sys2Proof/Machine/State.lean ====
section
/-! DEFINITION. The complete state of the core (10_state.md R20) as plain data, its value after `construct()` (R33), and the
ways a step can end (00_scope.md R10). -/

namespace Sys2Proof.Machine

/-- `Mem` as the list of the bytes that differ from what they hold after reset, by rising address (20_memory.md R40; the
canonical form is `Memory.wf`, the reset contents are `Memory.unlisted`). -/
abbrev Memory := List Host.Cell

/-- `FB[y][x]`: 32 rows from the top of 64 columns from the left, one bit a pixel, true is on (R28). -/
abbrev Framebuffer := Vector (Vector Bool 64) 32

/-- The state of R20's table. -/
structure State where
  /-- the model's own field: the OPEN parameters, constant while the machine runs (R7) -/
  cfg : Config
  /-- `Mem`, 4096 bytes (R40) -/
  mem : Memory
  /-- `V[0]`..`V[15]`; `V[15]` is `VF` (R21, R22) -/
  v : Vector Byte 16
  /-- `I` (R23) -/
  i : Word
  /-- `PC`: between cycles the address of the next instruction (R24) -/
  pc : Word
  /-- the `STACK_DEPTH` slots of the call stack, slot 0 first (R26) -/
  stack : List Word
  /-- `SP`: the number of return addresses held (R26) -/
  sp : Nat
  /-- `DT`, the delay timer (R27) -/
  dt : Byte
  /-- `ST`, the sound timer (R27) -/
  st : Byte
  /-- `FB` (R28) -/
  fb : Framebuffer
  /-- `keypad[0]`..`keypad[15]`, true is pressed; written by the host alone (R29) -/
  keypad : Vector Bool 16
  /-- the model's own field for the hidden pseudo-random source: how many draws have been taken (R31) -/
  draws : Nat
  deriving DecidableEq, Repr

/-- `construct()` (R33, 70_reset_and_hazards.md R170) for one choice of the OPEN parameters. Memory lists nothing: it holds
its reset contents, the font and zeros. `draws` is DESIGN CHOICE 0, assumption log 6. -/
def State.construct (cfg : Config) : State where
  cfg := cfg
  mem := []
  v := Vector.replicate 16 0
  i := 0
  pc := BitVec.ofNat 16 progBase
  stack := List.replicate cfg.stackDepth 0
  sp := 0
  dt := 0
  st := 0
  fb := Vector.replicate 32 (Vector.replicate 64 false)
  keypad := Vector.replicate 16 false
  draws := 0

/-- The machine right after reset, with the spec's default parameters (R7; PRESUMED, assumption logs 2, 3 and 4). -/
def State.reset : State := State.construct defaultConfig

/-- The four error conditions (R10, 60_exceptions.md R150). A fault is its name and nothing else (decision D21). -/
inductive Fault where
  /-- raised by `2nnn` with the stack full (R151); safe: the hardware reports the same condition -/
  | stackOverflow
  /-- raised by `00EE` with the stack empty (R152); safe: the hardware reports the same condition -/
  | stackUnderflow
  /-- raised by the fetch, `Dxyn`, `Fx33`, `Fx55` and `Fx65` at an address outside 0..4095 (R153); safe: the machine stops
  where a masking implementation would run on (decision D6, assumption log 7) -/
  | invalidMemoryAccess
  /-- raised by `load` alone, on an image of more than 3584 bytes (R154); safe: the hardware reports the same condition -/
  | programTooLarge
  deriving DecidableEq, Repr

/-- Reasons to give an instruction no meaning. -/
inductive Refusal where
  /-- the instruction's arm of `exec` has no meaning yet; raised by no arm of this model; safe: nothing runs -/
  | notModelled (mnemonic : String)
  deriving DecidableEq, Repr

end Sys2Proof.Machine
end

