-- ==== Sys2Proof/Machine/Flags.lean ====
section
/-! DEFINITION. The machine's one flag, `VF` = `V[15]` (10_state.md R22), and the condition each of the flag-writing
instructions of 42_alu.md computes, from the operands as read (R100). The collision flag of `Dxyn` is computed by the draw
(Machine/Ops.lean, R127). -/

namespace Sys2Proof.Machine

/-- `VF` is `V[15]` (R22). -/
def flagReg : Reg := 15

/-- A flag outcome writes 0x00 or 0x01 into all 8 bits (R22). -/
def flagByte (b : Bool) : Byte := if b then 1 else 0

/-- `8xy4`: carry, the exact sum exceeds 255 (R107). -/
def carryOut (a b : Byte) : Bool := decide (255 < a.toNat + b.toNat)

/-- `8xy5` with `a - b`, `8xy7` with the operands exchanged: strictly greater, so equal operands give 0 (R108, R110,
R113). -/
def strictlyAbove (a b : Byte) : Bool := decide (b.toNat < a.toNat)

/-- `8xy6`: the bit shifted out to the right (R109). -/
def lowBit (a : Byte) : Bool := a.getLsbD 0

/-- `8xyE`: the bit shifted out to the left (R111). -/
def highBit (a : Byte) : Bool := a.getLsbD 7

end Sys2Proof.Machine
end

