-- ==== Sys2Proof/Machine/Memory.lean ====
section
/-! DEFINITION. `Mem` (20_memory.md): what a byte that nothing has written reads as, the read and the write of one byte of
the list form, and that form. Range checks are in Machine/Ops.lean (R46). -/

namespace Sys2Proof.Machine

/-- What an unlisted address reads as: the reset contents of R33, the font bytes at `FONT_BASE` and zero elsewhere. -/
def Memory.unlisted (cfg : Config) (a : Nat) : Byte :=
  if h : cfg.fontBase ≤ a ∧ a < cfg.fontBase + fontSize then cfg.fontData[a - cfg.fontBase]'(by omega) else 0

/-- The byte at an address: the listed one, else the reset contents. -/
def Memory.read (cfg : Config) (m : Memory) (a : Nat) : Byte :=
  match m with
  | [] => Memory.unlisted cfg a
  | (b, w) :: rest => if b = a then w else Memory.read cfg rest a

/-- The list without an address. -/
def Memory.erase (m : Memory) (a : Nat) : Memory :=
  match m with
  | [] => []
  | (b, w) :: rest => if b = a then Memory.erase rest a else (b, w) :: Memory.erase rest a

/-- The list with a new entry before the first higher address. -/
def Memory.insert (m : Memory) (a : Nat) (w : Byte) : Memory :=
  match m with
  | [] => [(a, w)]
  | (b, u) :: rest => if a < b then (a, w) :: (b, u) :: rest else (b, u) :: Memory.insert rest a w

/-- Write one byte; writing what the address holds after reset leaves it unlisted. -/
def Memory.write (cfg : Config) (m : Memory) (a : Nat) (w : Byte) : Memory :=
  if w = Memory.unlisted cfg a then Memory.erase m a else Memory.insert (Memory.erase m a) a w

/-- The canonical form: addresses of `Mem` (R40), strictly rising, no entry equal to what it would read as unlisted. -/
def Memory.wf (cfg : Config) (m : Memory) : Bool :=
  match m with
  | [] => true
  | (a, w) :: rest =>
    decide (a < memSize) && decide (w ≠ Memory.unlisted cfg a) && rest.all (fun c => decide (a < c.1)) &&
      Memory.wf cfg rest

end Sys2Proof.Machine
end

