-- ==== Sys2Proof/Machine/Ops.lean ====
section
/-! DEFINITION. The named operations over registers, memory, the stack, the framebuffer and the timers that every meaning
is written with (00_scope.md R9). -/

namespace Sys2Proof.Machine

/-! ### Faults -/

/-- `raise <Fault>`: the cycle ends with the fault and commits nothing (R9, 40_cycle.md R85; 60_exceptions.md R158: no state
is saved, no vector is taken, so this is all that "taking an exception" is here). There is no return from one (R159). -/
def raise (f : Fault) : Host.Outcome State Fault Refusal := .fault f

/-! ### General registers (R21, R22) -/

/-- `V[x]`. -/
def State.getV (s : State) (x : Reg) : Byte := s.v[x]

/-- `V[x] <- b`. -/
def State.setV (s : State) (x : Reg) (b : Byte) : State := { s with v := s.v.set x b }

/-- `V[x] <- r`, then, last, `VF <- f` (42_alu.md R100). -/
def State.setVFlag (s : State) (x : Reg) (r : Byte) (f : Bool) : State :=
  (s.setV x r).setV flagReg (flagByte f)

/-- `V[0]`..`V[x]`, in order (43_index_memory.md R119). -/
def State.firstRegs (s : State) (x : Reg) : List Byte := s.v.toList.take (x.val + 1)

/-- `V[k] <- b_k` from index `k` up (R120). -/
def State.setRegsFrom (s : State) (k : Nat) (bs : List Byte) : State :=
  match bs with
  | [] => s
  | b :: rest => State.setRegsFrom { s with v := s.v.setIfInBounds k b } (k + 1) rest

/-! ### Memory (20_memory.md R45, R46) -/

/-- The byte of `Mem` at an address in range. -/
def State.peek (s : State) (a : Nat) : Byte := Memory.read s.cfg s.mem a

/-- Write one byte of `Mem` at an address in range. -/
def State.poke (s : State) (a : Nat) (b : Byte) : State := { s with mem := Memory.write s.cfg s.mem a b }

/-- `MemRead(addr, 1)`: none is `InvalidMemoryAccess`, at an address outside 0..4095 (R46). -/
def State.memRead (s : State) (a : Nat) : Option Byte := if a < memSize then some (s.peek a) else none

/-- Are all `n` bytes from `base` in range? No byte is no access (44_display.md R127, R153). -/
def spanInMemory (base n : Nat) : Bool := n == 0 || decide (base + n ≤ memSize)

/-- The bytes `Mem[base]`..`Mem[base + n - 1]` in order; none is `InvalidMemoryAccess` (R114). -/
def State.loadSpan (s : State) (base n : Nat) : Option (List Byte) :=
  if spanInMemory base n then some ((List.range n).map fun k => s.peek (base + k)) else none

/-- Write bytes from `base` up, in order. -/
def State.pokeList (s : State) (base : Nat) (bs : List Byte) : State :=
  match bs with
  | [] => s
  | b :: rest => State.pokeList (s.poke base b) (base + 1) rest

/-- Store bytes from `base` up: every address is checked before anything is written (R114). -/
def storeSpan (base : Nat) (bs : List Byte) (s : State) : Host.Outcome State Fault Refusal :=
  if spanInMemory base bs.length then .next (s.pokeList base bs) else raise .invalidMemoryAccess

/-! ### Program counter and call stack (10_state.md R24, R26) -/

/-- Skip the next instruction when the condition holds: `PC <- (PC + 2) mod 65536` (41_flow.md R89, R94). -/
def State.skipIf (s : State) (c : Bool) : State := if c then { s with pc := s.pc + 2 } else s

/-- Stack slot `k` (R26). A slot past the list holds its reset value 0x0000; no run reaches such a state (`State.Inv`,
assumption log 23). -/
def State.slot (s : State) (k : Nat) : Word := s.stack.getD k 0

/-- `push(a)` of R26, then `PC <- target` (41_flow.md R91). -/
def pushAndJump (a target : Word) (s : State) : Host.Outcome State Fault Refusal :=
  if s.sp < s.cfg.stackDepth then
    .next { s with stack := s.stack.set s.sp a, sp := s.sp + 1, pc := target }
  else raise .stackOverflow

/-- `PC <- pop()` of R26; the slot is not cleared (41_flow.md R92). -/
def popToPc (s : State) : Host.Outcome State Fault Refusal :=
  if s.sp = 0 then raise .stackUnderflow
  else .next { s with sp := s.sp - 1, pc := s.slot (s.sp - 1) }

/-! ### Framebuffer (10_state.md R28, 44_display.md R126, R127) -/

/-- Every pixel off (R125). -/
def blankScreen : Framebuffer := Vector.replicate 32 (Vector.replicate 64 false)

/-- A column modulo 64 (R127). -/
def wrapColumn (n : Nat) : Fin 64 := ⟨n % 64, Nat.mod_lt n (by decide)⟩

/-- A row modulo 32 (R127). -/
def wrapRow (n : Nat) : Fin 32 := ⟨n % 32, Nat.mod_lt n (by decide)⟩

/-- `FB[y][x]`. -/
def pixel (fb : Framebuffer) (y : Fin 32) (x : Fin 64) : Bool := fb[y][x]

/-- `FB[y][x] <- FB[y][x] ^ 1`. -/
def togglePixel (fb : Framebuffer) (y : Fin 32) (x : Fin 64) : Framebuffer :=
  fb.set y (fb[y].set x (!pixel fb y x))

/-- A draw under way: the framebuffer, and whether an on pixel has been turned off. -/
structure Draw where
  /-- the framebuffer so far -/
  fb : Framebuffer
  /-- the collision so far (R127) -/
  collision : Bool
  deriving DecidableEq, Repr

/-- Flip one pixel; a collision if it was on (R127). -/
def Draw.flip (d : Draw) (y : Fin 32) (x : Fin 64) : Draw :=
  { fb := togglePixel d.fb y x, collision := d.collision || pixel d.fb y x }

/-- Column offset `c` of a sprite row: bit `b[7 - c]`, bit 7 the leftmost pixel (R126, decision D11, assumption log 12). -/
def spriteBit (b : Byte) (c : Nat) : Bool := b.getLsbD (7 - c)

/-- One sprite row at column `x0` of screen row `y`, column by column, each column wrapped (R127, decision D10, assumption
log 11). -/
def Draw.row (d : Draw) (x0 : Nat) (y : Fin 32) (b : Byte) : Draw :=
  (List.range 8).foldl (fun d c => if spriteBit b c then d.flip y (wrapColumn (x0 + c)) else d) d

/-- The sprite's rows from row offset `r`, top row first, each row wrapped (R127). -/
def Draw.rows (d : Draw) (x0 y0 r : Nat) (bs : List Byte) : Draw :=
  match bs with
  | [] => d
  | b :: rest => Draw.rows (d.row x0 (wrapRow (y0 + r)) b) x0 y0 (r + 1) rest

/-! ### The cycle's own steps (40_cycle.md R80, R81, R84) -/

/-- The opcode at `PC`, high byte first (R81, 20_memory.md R44); none is `InvalidMemoryAccess`. -/
def State.fetch (s : State) : Option Word :=
  match s.memRead s.pc.toNat, s.memRead (s.pc.toNat + 1) with
  | some hi, some lo => some (wordOfBytes hi lo)
  | _, _ => none

/-- `PC <- (PC + 2) mod 65536` before the behaviour runs (R81). -/
def State.advance (s : State) : State := { s with pc := s.pc + 2 }

/-- A timer that is nonzero goes down by 1; it never goes below 0 (R84). -/
def tickTimer (t : Byte) : Byte := if t = 0 then 0 else t - 1

/-- Both timers tick, in every successful cycle (R84). -/
def State.tick (s : State) : State := { s with dt := tickTimer s.dt, st := tickTimer s.st }

/-- The end of a cycle: a behaviour that ran without fault is followed by the tick (R84); a fault is the outcome and carries
no state: nothing is committed (R85). -/
def completeCycle (o : Host.Outcome State Fault Refusal) : Host.Outcome State Fault Refusal :=
  match o with
  | .next t => .next t.tick
  | .fault f => .fault f
  | .refused r => .refused r

end Sys2Proof.Machine
end

