-- ==== Sys2Proof/Machine/Operands.lean ====
section
/-! DEFINITION. The operand forms of 30_encoding.md R63 and the values the instructions compute from them. Register
operands are `State.getV`; everything here is unsigned (00_scope.md R8). -/

namespace Sys2Proof.Machine

/-- `zext_16` of a 12-bit operand `nnn` (R63). -/
def zextAddr (nnn : Addr12) : Word := nnn.setWidth 16

/-- `zext_16` of an 8-bit value (R9). -/
def zextByte (b : Byte) : Word := b.setWidth 16

/-- The base address of a memory operand: the exact value of `I` (20_memory.md R46, 43_index_memory.md R114). -/
def State.base (s : State) : Nat := s.i.toNat

/-- The key `Ex9E` and `ExA1` test: the low four bits of `Vx` (45_keypad_timers.md R134, decision D15, assumption log 16). -/
def State.keySelected (s : State) (x : Reg) : Bool := s.keypad[((s.getV x).extractLsb' 0 4).toFin]

/-- The least pressed key, scanning 0..15 in ascending order (R137). -/
def State.firstKey (s : State) : Option Nat := s.keypad.toList.findIdx? fun pressed => pressed

/-- The address of a glyph: `FONT_BASE + 5 * Vx`, the whole register (43_index_memory.md R117, decision D26, assumption
log 17). -/
def State.glyphAddr (s : State) (x : Reg) : Word := BitVec.ofNat 16 (s.cfg.fontBase + 5 * (s.getV x).toNat)

/-- The decimal digits of a byte: hundreds, tens, ones (R118). -/
def decimalDigits (b : Byte) : List Byte :=
  [BitVec.ofNat 8 (b.toNat / 100), BitVec.ofNat 8 (b.toNat / 10 % 10), BitVec.ofNat 8 (b.toNat % 10)]

/-- The start column of a draw, `Vx mod 64` (44_display.md R127). -/
def State.drawColumn (s : State) (x : Reg) : Nat := (s.getV x).toNat % 64

/-- The start row of a draw, `Vy mod 32` (R127). -/
def State.drawRow (s : State) (y : Reg) : Nat := (s.getV y).toNat % 32

end Sys2Proof.Machine
end

