-- ==== Sys2Proof/Machine/Alu.lean ====
section
/-! DEFINITION. Register load, arithmetic, logic, shifts and random (42_alu.md R99 to R113). All arithmetic is unsigned and
truncates to 8 bits (R113); `V[x]` is written first and `VF` last (R100, decision D13, assumption log 14); the logic
instructions do not write `VF` (decision D14, assumption log 15). -/

namespace Sys2Proof.Machine

/-- `6xkk` (R101). -/
def execLdImm (x : Reg) (kk : Byte) (s : State) : Host.Outcome State Fault Refusal := .next (s.setV x kk)

/-- `7xkk`: no flag effect (R102). -/
def execAddImm (x : Reg) (kk : Byte) (s : State) : Host.Outcome State Fault Refusal :=
  .next (s.setV x (s.getV x + kk))

/-- `8xy0` (R103). -/
def execLdReg (x y : Reg) (s : State) : Host.Outcome State Fault Refusal := .next (s.setV x (s.getV y))

/-- `8xy1` (R104). -/
def execOrReg (x y : Reg) (s : State) : Host.Outcome State Fault Refusal :=
  .next (s.setV x (s.getV x ||| s.getV y))

/-- `8xy2` (R105). -/
def execAndReg (x y : Reg) (s : State) : Host.Outcome State Fault Refusal :=
  .next (s.setV x (s.getV x &&& s.getV y))

/-- `8xy3` (R106). -/
def execXorReg (x y : Reg) (s : State) : Host.Outcome State Fault Refusal :=
  .next (s.setV x (s.getV x ^^^ s.getV y))

/-- `8xy4` (R107). -/
def execAddReg (x y : Reg) (s : State) : Host.Outcome State Fault Refusal :=
  .next (s.setVFlag x (s.getV x + s.getV y) (carryOut (s.getV x) (s.getV y)))

/-- `8xy5` (R108). -/
def execSubReg (x y : Reg) (s : State) : Host.Outcome State Fault Refusal :=
  .next (s.setVFlag x (s.getV x - s.getV y) (strictlyAbove (s.getV x) (s.getV y)))

/-- `8xy6`: shifts `V[x]`; field `y` is not used (R109). -/
def execShr (x _y : Reg) (s : State) : Host.Outcome State Fault Refusal :=
  .next (s.setVFlag x (s.getV x >>> 1) (lowBit (s.getV x)))

/-- `8xy7` (R110). -/
def execSubnReg (x y : Reg) (s : State) : Host.Outcome State Fault Refusal :=
  .next (s.setVFlag x (s.getV y - s.getV x) (strictlyAbove (s.getV y) (s.getV x)))

/-- `8xyE`: shifts `V[x]`; field `y` is not used (R111). -/
def execShl (x _y : Reg) (s : State) : Host.Outcome State Fault Refusal :=
  .next (s.setVFlag x (s.getV x <<< 1) (highBit (s.getV x)))

/-- `Cxkk`: consumes one draw (R112; the free value of assumption log 6). -/
def execRnd (x : Reg) (kk : Byte) (s : State) : Host.Outcome State Fault Refusal :=
  .next { s.setV x (Config.randomByte s.draws &&& kk) with draws := s.draws + 1 }

end Sys2Proof.Machine
end

