-- ==== Sys2Proof/Machine/Device.lean ====
section
/-! DEFINITION. Key latch and timer instructions (45_keypad_timers.md R134 to R140). The tick of the same cycle follows
(40_cycle.md R84). -/

namespace Sys2Proof.Machine

/-- `Ex9E` (R135). -/
def execSkp (x : Reg) (s : State) : Host.Outcome State Fault Refusal := .next (s.skipIf (s.keySelected x))

/-- `ExA1` (R136). -/
def execSknp (x : Reg) (s : State) : Host.Outcome State Fault Refusal := .next (s.skipIf (!s.keySelected x))

/-- `Fx0A`: the lowest pressed key, else back to this instruction (R137, assumption log 19). -/
def execLdVxKey (x : Reg) (s : State) : Host.Outcome State Fault Refusal :=
  match s.firstKey with
  | some k => .next (s.setV x (BitVec.ofNat 8 k))
  | none => .next { s with pc := s.pc - 2 }

/-- `Fx07` (R138). -/
def execLdVxDT (x : Reg) (s : State) : Host.Outcome State Fault Refusal := .next (s.setV x s.dt)

/-- `Fx15` (R139). -/
def execLdDT (x : Reg) (s : State) : Host.Outcome State Fault Refusal := .next { s with dt := s.getV x }

/-- `Fx18` (R140). -/
def execLdST (x : Reg) (s : State) : Host.Outcome State Fault Refusal := .next { s with st := s.getV x }

end Sys2Proof.Machine
end

