-- ==== Sys2Proof/Machine/Display.lean ====
section
/-! DEFINITION. Framebuffer clear and sprite draw (44_display.md R125 to R127). -/

namespace Sys2Proof.Machine

/-- `00E0`; `VF` is not written (R125). -/
def execCls (s : State) : Host.Outcome State Fault Refusal := .next { s with fb := blankScreen }

/-- `Dxyn`: the coordinates are read before `VF` is written; `VF` is written on every execution, last (R127). -/
def execDrw (x y : Reg) (n : Fin 16) (s : State) : Host.Outcome State Fault Refusal :=
  match s.loadSpan s.base n.val with
  | some sprite =>
    let d := Draw.rows { fb := s.fb, collision := false } (s.drawColumn x) (s.drawRow y) 0 sprite
    .next ({ s with fb := d.fb }.setV flagReg (flagByte d.collision))
  | none => raise .invalidMemoryAccess

end Sys2Proof.Machine
end

