-- ==== Sys2Proof/Machine/Flow.lean ====
section
/-! DEFINITION. Control transfer (41_flow.md R89 to R97). `PC` is already advanced when a meaning runs (R89). -/

namespace Sys2Proof.Machine

/-- `1nnn` (R90). -/
def execJp (nnn : Addr12) (s : State) : Host.Outcome State Fault Refusal :=
  .next { s with pc := zextAddr nnn }

/-- `2nnn`: push the advanced `PC`, the return address, and jump (R91). -/
def execCall (nnn : Addr12) (s : State) : Host.Outcome State Fault Refusal :=
  pushAndJump s.pc (zextAddr nnn) s

/-- `00EE` (R92). -/
def execRet (s : State) : Host.Outcome State Fault Refusal := popToPc s

/-- `Bnnn`: always `V[0]`; 16-bit sum, never reduced modulo 4096 (R93). -/
def execJpV0 (nnn : Addr12) (s : State) : Host.Outcome State Fault Refusal :=
  .next { s with pc := zextByte (s.getV 0) + zextAddr nnn }

/-- `3xkk` (R94). -/
def execSeImm (x : Reg) (kk : Byte) (s : State) : Host.Outcome State Fault Refusal :=
  .next (s.skipIf (s.getV x == kk))

/-- `4xkk` (R95). -/
def execSneImm (x : Reg) (kk : Byte) (s : State) : Host.Outcome State Fault Refusal :=
  .next (s.skipIf (s.getV x != kk))

/-- `5xy0` (R96). -/
def execSeReg (x y : Reg) (s : State) : Host.Outcome State Fault Refusal :=
  .next (s.skipIf (s.getV x == s.getV y))

/-- `9xy0` (R97). -/
def execSneReg (x y : Reg) (s : State) : Host.Outcome State Fault Refusal :=
  .next (s.skipIf (s.getV x != s.getV y))

end Sys2Proof.Machine
end

