-- ==== Sys2Proof/Machine/Index.lean ====
section
/-! DEFINITION. The index register, decimal digits, and the register block's store and load (43_index_memory.md R114 to
R120). Every address is checked before anything is written, and `I` is left unchanged by its users (R114, assumption
log 18). -/

namespace Sys2Proof.Machine

/-- `Annn` (R115). -/
def execLdI (nnn : Addr12) (s : State) : Host.Outcome State Fault Refusal := .next { s with i := zextAddr nnn }

/-- `Fx1E`: modulo 65536, no flag (R116). -/
def execAddI (x : Reg) (s : State) : Host.Outcome State Fault Refusal :=
  .next { s with i := s.i + zextByte (s.getV x) }

/-- `Fx29` (R117). -/
def execLdF (x : Reg) (s : State) : Host.Outcome State Fault Refusal := .next { s with i := s.glyphAddr x }

/-- `Fx33` (R118). -/
def execLdB (x : Reg) (s : State) : Host.Outcome State Fault Refusal :=
  storeSpan s.base (decimalDigits (s.getV x)) s

/-- `Fx55` (R119). -/
def execStoreRegs (x : Reg) (s : State) : Host.Outcome State Fault Refusal :=
  storeSpan s.base (s.firstRegs x) s

/-- `Fx65` (R120). -/
def execLoadRegs (x : Reg) (s : State) : Host.Outcome State Fault Refusal :=
  match s.loadSpan s.base (x.val + 1) with
  | some bs => .next (s.setRegsFrom 0 bs)
  | none => raise .invalidMemoryAccess

end Sys2Proof.Machine
end

