-- ==== Sys2Proof/Machine/Nop.lean ====
section
/-! DEFINITION. The no-operation (40_cycle.md R86). -/

namespace Sys2Proof.Machine

/-- `NOP`, every unmapped word: nothing; the cycle around it still advances `PC` and ticks (R86). -/
def execNop (_word : Word) (s : State) : Host.Outcome State Fault Refusal := .next s

end Sys2Proof.Machine
end

