-- ==== Sys2Proof/Machine/Step.lean ====
section
/-! DEFINITION. The core's one step, the cycle (40_cycle.md R80), and the placing of a word where it fetches next. -/

namespace Sys2Proof.Machine

/-- `cycle()`: fetch, advance, decode, execute, tick (R80). -/
def step (s : State) : Host.Outcome State Fault Refusal :=
  match s.fetch with
  | none => raise .invalidMemoryAccess
  | some w => completeCycle (exec (decodeWord w) s.advance)

/-- `s` with an instruction word stored where the next fetch reads it, at `PC` and `PC + 1`, high byte first (R44); it stands
for the host's `load`. A `PC` no fetch can read (R47) is set to `PROG_BASE`, where `load` places a program. -/
def State.withFetchWord (s : State) (nbits w : Nat) : State :=
  let s' := if s.pc.toNat + 1 < memSize then s else { s with pc := BitVec.ofNat 16 progBase }
  s'.pokeList s'.pc.toNat (bytesOfWord (tableWord nbits w))

end Sys2Proof.Machine
end

