-- ==== Sys2Proof/Machine/HostOps.lean ====
section
/-! DEFINITION. The host's operations, which happen only between cycles (00_scope.md R5, R6; 70_reset_and_hazards.md). -/

namespace Sys2Proof.Machine

/-- `load(bytes)`: copy the image to `PROG_BASE`, or fail with no partial load (R171). It touches nothing but memory. -/
def load (bytes : List Byte) (s : State) : Host.Outcome State Fault Refusal :=
  if progBase + bytes.length ≤ memSize then .next (s.pokeList progBase bytes) else raise .programTooLarge

/-- What the host can do to the machine (R6); it may do it between any two cycles (R172, decisions D22 and D23, assumption
logs 24 and 25). -/
inductive HostAction where
  /-- `construct()`: start afresh (R170, R159) -/
  | construct
  /-- `load(bytes)` (R171) -/
  | load (bytes : List Byte)
  /-- write one entry of the key latch (R29) -/
  | writeKey (k : Fin 16) (pressed : Bool)
  /-- `cycle()` (R80) -/
  | cycle
  deriving DecidableEq, Repr

/-- One action of the host. A fresh machine keeps its parameters and does not replay the random source: the draws already
taken stay taken (R33: the seed is unspecified; assumption log 6). -/
def act (a : HostAction) (s : State) : Host.Outcome State Fault Refusal :=
  match a with
  | .construct => .next { State.construct s.cfg with draws := s.draws }
  | .load bytes => Sys2Proof.Machine.load bytes s
  | .writeKey k pressed => .next { s with keypad := s.keypad.set k pressed }
  | .cycle => step s

/-- The machine's state once an operation called in state `s` has ended: the next state, or, after a fault, the state before
the call (R85, R158, R159: nothing is committed and nothing is recorded). -/
def stateAfter (s : State) (o : Host.Outcome State Fault Refusal) : State :=
  match o with
  | .next t => t
  | .fault _ => s
  | .refused _ => s

/-- The state after a list of the host's actions, whatever their outcomes. -/
def runActions (as : List HostAction) (s : State) : State :=
  match as with
  | [] => s
  | a :: rest => runActions rest (stateAfter s (act a s))

/-- The host's cell `k` of `framebuffer[0..2047]`: pixel `(k mod 64, k div 64)`, 1 for on and 0 for off (R28, decision D12,
assumption log 13). -/
def framebufferCell (s : State) (k : Fin 2048) : Nat :=
  if pixel s.fb ⟨k.val / 64, by omega⟩ ⟨k.val % 64, by omega⟩ then 1 else 0

/-- `sound_active = (ST != 0)`, the core's only sound output (R27). -/
def soundActive (s : State) : Bool := s.st != 0

end Sys2Proof.Machine
end

