-- ==== Sys2Proof/Safety.lean ====
section
/-! DEFINITION. What counts as a safe state and a safe run, in the terms the claims use. -/

namespace Sys2Proof.Machine

/-- The greatest value any step leaves in `PC`: `Bnnn` with `0xFF + 0xFFF` (10_state.md R25). -/
abbrev maxPc : Nat := 0x10FE

/-- The greatest return address a call can push: a call is fetched from 4094 at most (41_flow.md R92). -/
abbrev maxReturn : Nat := 4096

/-- What every state of a run satisfies: legal parameters (R7), memory in canonical form, `0 <= SP <= STACK_DEPTH` and as
many slots as the capacity (R26), return addresses that a call can have pushed (R92), and a `PC` some step can leave
(R25). -/
structure State.Inv (s : State) : Prop where
  /-- the OPEN parameters keep their constraints (R7) -/
  cfgValid : s.cfg.valid = true
  /-- memory is in canonical form (R40) -/
  memWf : Memory.wf s.cfg s.mem = true
  /-- there are `STACK_DEPTH` slots (R20, R26) -/
  slots : s.stack.length = s.cfg.stackDepth
  /-- `SP` counts live entries (R26) -/
  spBound : s.sp ≤ s.cfg.stackDepth
  /-- every slot holds an address a call can push (R92) -/
  returns : ∀ a ∈ s.stack, a.toNat ≤ maxReturn
  /-- `PC` never wraps (R25) -/
  pcBound : s.pc.toNat ≤ maxPc

/-- A state some history of host actions reaches from `construct()` (R6, R172). -/
def State.Reachable (cfg : Config) (s : State) : Prop :=
  ∃ as : List HostAction, s = runActions as (State.construct cfg)

/-- Two states that differ at most in stack slots that hold no live entry, at `SP` and above (R26). -/
structure State.SameButDeadSlots (s t : State) : Prop where
  /-- everything but the slots agrees -/
  rest : { s with stack := t.stack } = t
  /-- the live slots agree -/
  live : ∀ k, k < s.sp → s.slot k = t.slot k
  /-- as many slots -/
  slots : s.stack.length = t.stack.length

/-! The frames the statements use: what an instruction leaves as it was. -/

/-- Every byte of memory, by the model's read of one byte. -/
def SameMemory (s t : State) : Prop := ∀ a : Nat, t.memRead a = s.memRead a

/-- Every byte of memory outside the `n` bytes from `base`. -/
def SameMemoryBut (base n : Nat) (s t : State) : Prop :=
  ∀ a : Nat, (a < base ∨ base + n ≤ a) → t.memRead a = s.memRead a

/-- At most the general registers named have changed: every other register, every byte of memory and every other item of
the state are as they were. -/
def OnlyRegs (changed : List Reg) (s t : State) : Prop :=
  (∀ r : Reg, r ∉ changed → t.getV r = s.getV r) ∧ SameMemory s t ∧ t = { s with v := t.v }

/-- At most `PC` has changed. -/
def OnlyPc (s t : State) : Prop := SameMemory s t ∧ t = { s with pc := t.pc }

/-- At most `I` has changed. -/
def OnlyIndex (s t : State) : Prop := SameMemory s t ∧ t = { s with i := t.i }

/-- At most the `n` bytes of memory from `base` have changed. -/
def OnlyMemory (base n : Nat) (s t : State) : Prop := SameMemoryBut base n s t ∧ t = { s with mem := t.mem }

/-- The draw `Dxyn` in state `s` has a set sprite bit for the screen pixel in row `py` and column `px`: bit `7 - c` of
sprite byte `r`, at the start position plus `(c, r)`, each coordinate wrapped (44_display.md R126, R127). -/
def SpriteCovers (s : State) (x y : Reg) (n : Fin 16) (py : Fin 32) (px : Fin 64) : Prop :=
  ∃ (r c : Nat) (b : Byte), r < n.val ∧ c < 8 ∧ s.memRead (s.i.toNat + r) = some b ∧ b.getLsbD (7 - c) = true ∧
    py.val = ((s.getV y).toNat % 32 + r) % 32 ∧ px.val = ((s.getV x).toNat % 64 + c) % 64

end Sys2Proof.Machine
end

