-- ==== Sys2Proof/Certificates/Slice0/Obligations.lean ====
section
/-! DEFINITION. The statements for the provers. In a statement about `exec`, `s` is the state the behaviour sees: its `PC` is
already advanced (40_cycle.md R81). In a statement about `step`, `s` is the state before the cycle. -/

open Sys2Proof Sys2Proof.Machine

/-! ### Encoding and decoding (30_encoding.md) -/

/-- Decoding the encoding of any well-formed instruction gives it back, with every operand, and leaves the bytes after it. -/
def Obligations.DecodeOfEncodeGivesTheInstruction : Prop :=
  ∀ (i : Instr) (rest : List Byte), i.wellFormed = true →
    decodeWord (encode i) = i ∧ decodeBytes (encodeBytes i ++ rest) = .ok (i, rest)

/-- Every word decodes to a well-formed instruction, and a word that is no alias is the encoding of what it decodes to. -/
def Obligations.EncodeOfDecodeGivesTheWord : Prop :=
  ∀ w : Word, (decodeWord w).wellFormed = true ∧ (isAlias w = false → encode (decodeWord w) = w)

/-- R68 (decision D9, log 10): an alias word executes exactly as the canonical encoding, another word with the same key and
the same operand fields. -/
def Obligations.AliasWordsRunAsTheirCanonicalWord : Prop :=
  ∀ w : Word, isAlias w = true →
    encode (decodeWord w) ≠ w ∧ isAlias (encode (decodeWord w)) = false ∧
      decodeWord (encode (decodeWord w)) = decodeWord w ∧ opOf (encode (decodeWord w)) = opOf w ∧
      (opOf w ≠ 0x0 → xOf (encode (decodeWord w)) = xOf w)

/-- R66: a word decodes to the row whose key it has under the row's mask, and no two of the 34 rows overlap. -/
def Obligations.DecodeSelectsTheRowOfTheOpcodeMap : Prop :=
  opcodeTable.length = 34 ∧
    ∀ w : Word,
      (∀ r ∈ opcodeTable, (r.selects w = true ↔ (decodeWord w).mnemonic = r.mnemonic)) ∧
        (∀ r ∈ opcodeTable, ∀ r' ∈ opcodeTable, r.selects w = true → r'.selects w = true → r = r')

/-- R67: the unmapped words of its table are the words that select no row, and they are what decodes to `NOP`. -/
def Obligations.UnmappedWordsAreThoseOfNoRow : Prop :=
  ∀ w : Word,
    (unmapped w = true ↔ decodeWord w = .nop w) ∧
      (unmapped w = true ↔ ∀ r ∈ opcodeTable, r.selects w = false) ∧
      (unmapped w = false ↔ (decodeWord w).mnemonic ≠ "NOP")

/-- Words written out from the spec's encodings, one or more of each family, decode to what they stand for. -/
def Obligations.WrittenOutWordsDecode : Prop :=
  decodeWord 0x00E0 = .cls ∧ decodeWord 0x00EE = .ret ∧ decodeWord 0x1200 = .jp 0x200 ∧
    decodeWord 0x2210 = .call 0x210 ∧ decodeWord 0x600A = .ldImm 0x0 0x0A ∧ decodeWord 0x8014 = .addReg 0x0 0x1 ∧
    decodeWord 0xA300 = .ldI 0x300 ∧ decodeWord 0xC30F = .rnd 0x3 0x0F ∧ decodeWord 0xDF13 = .drw 0xF 0x1 0x3 ∧
    decodeWord 0xE49E = .skp 0x4 ∧ decodeWord 0xF10A = .ldVxKey 0x1 ∧ decodeWord 0xF265 = .loadRegs 0x2 ∧
    decodeWord 0x8018 = .nop 0x8018

/-! ### The cycle (40_cycle.md) -/

/-- R80: fetch, advance, decode, execute, tick; a fault of the fetch or of the behaviour is the outcome. -/
def Obligations.StepRunsTheDecodedInstruction : Prop :=
  (∀ (s : State) (hi lo : Byte) (i : Instr),
      s.memRead s.pc.toNat = some hi → s.memRead (s.pc.toNat + 1) = some lo → decodeBytes [hi, lo] = .ok (i, []) →
      step s =
        match exec i { s with pc := s.pc + 2 } with
        | .next t =>
          .next { t with dt := if t.dt = 0 then 0 else t.dt - 1, st := if t.st = 0 then 0 else t.st - 1 }
        | .fault f => .fault f
        | .refused r => .refused r) ∧
    (∀ s : State, (s.memRead s.pc.toNat = none ∨ s.memRead (s.pc.toNat + 1) = none) →
      step s = .fault .invalidMemoryAccess)

/-- R44: the fetched opcode has the byte at `PC` in bits 15..8 and the byte at `PC + 1` in bits 7..0. The order is fixed
there by a worked example, not by a sentence (decision D17, "derived"; log 21). -/
def Obligations.FetchReadsTheHighByteFirst : Prop :=
  ∀ (s : State) (w : Word),
    s.fetch = some w ↔
      s.memRead s.pc.toNat = some (w.extractLsb' 8 8) ∧ s.memRead (s.pc.toNat + 1) = some (w.extractLsb' 0 8)

/-- R47: the fetch is in range exactly when `PC <= 4094`, and out of range the cycle faults. -/
def Obligations.FetchFaultsExactlyAbove4094 : Prop :=
  ∀ s : State, (s.fetch = none ↔ 4094 < s.pc.toNat) ∧ (4094 < s.pc.toNat → step s = .fault .invalidMemoryAccess)

/-- R10: a cycle ends in a next state or one of its three faults, a load in a next state or its one fault, and after a fault
the state is unchanged. -/
def Obligations.CycleAndLoadOutcomesAreClosed : Prop :=
  (∀ s : State,
      (∃ t, step s = .next t) ∨
        ((step s = .fault .stackOverflow ∨ step s = .fault .stackUnderflow ∨ step s = .fault .invalidMemoryAccess) ∧
          stateAfter s (step s) = s)) ∧
    ∀ (s : State) (bytes : List Byte),
      (∃ t, load bytes s = .next t) ∨
        (load bytes s = .fault .programTooLarge ∧ stateAfter s (load bytes s) = s)

/-- R151, R152, R153: a cycle faults in exactly the listed cases, each with its own fault, and the state is unchanged. The
premise is the `SP <= STACK_DEPTH` of R26, an invariant of every run (`StepKeepsTheInvariant`). -/
def Obligations.CycleFaultsExactlyAsListed : Prop :=
  ∀ (s : State) (f : Fault), s.sp ≤ s.cfg.stackDepth →
    ((step s = .fault f ↔
      (f = .invalidMemoryAccess ∧ 4094 < s.pc.toNat) ∨
        ∃ w, s.fetch = some w ∧
          ((f = .stackOverflow ∧ s.sp = s.cfg.stackDepth ∧ ∃ nnn, decodeWord w = .call nnn) ∨
            (f = .stackUnderflow ∧ s.sp = 0 ∧ decodeWord w = .ret) ∨
            (f = .invalidMemoryAccess ∧
              ((∃ x y n, decodeWord w = .drw x y n ∧ 0 < n.val ∧ 4095 < s.i.toNat + n.val - 1) ∨
                (∃ x, decodeWord w = .ldB x ∧ 4093 < s.i.toNat) ∨
                (∃ x, decodeWord w = .storeRegs x ∧ 4095 < s.i.toNat + x.val) ∨
                (∃ x, decodeWord w = .loadRegs x ∧ 4095 < s.i.toNat + x.val))))) ∧
      (step s = .fault f → stateAfter s (step s) = s))

/-- R156 (marked there as derived) and R85 (decision D7, log 8): a faulting cycle leaves the state as it was, and a cycle
from it faults the same, whatever the key latch and the random source hold. -/
def Obligations.FaultRepeatsWhateverTheInputs : Prop :=
  ∀ (s : State) (f : Fault), step s = .fault f →
    stateAfter s (act .cycle s) = s ∧
      ∀ (keys : Vector Bool 16) (n : Nat), step { s with keypad := keys, draws := n } = .fault f

/-- R84 (its last clause is decision D19, log 20): after a successful cycle each timer is 1 less than the behaviour left it,
or 0 if that was 0; `Fx15` and `Fx18` tick in the cycle that wrote the timer; `Fx07` reads before the tick. Subtraction
here is of naturals, so 0 - 1 = 0. -/
def Obligations.TimersTickInEverySuccessfulCycle : Prop :=
  ∀ (s t : State) (w : Word), s.fetch = some w → step s = .next t →
    ((∀ x, decodeWord w ≠ .ldDT x) → t.dt.toNat = s.dt.toNat - 1) ∧
      (∀ x, decodeWord w = .ldDT x → t.dt.toNat = (s.getV x).toNat - 1) ∧
      ((∀ x, decodeWord w ≠ .ldST x) → t.st.toNat = s.st.toNat - 1) ∧
      (∀ x, decodeWord w = .ldST x → t.st.toNat = (s.getV x).toNat - 1) ∧
      (∀ x, decodeWord w = .ldVxDT x → t.getV x = s.dt)

/-- R24: what a successful cycle does to `PC`, from the address the instruction was fetched from; all modulo 65536. -/
def Obligations.ProgramCounterAfterACycle : Prop :=
  ∀ (s t : State) (w : Word), s.fetch = some w → step s = .next t →
    match decodeWord w with
    | .jp nnn | .call nnn => t.pc.toNat = nnn.toNat
    | .jpV0 nnn => t.pc.toNat = (s.getV 0).toNat + nnn.toNat
    | .ret => t.pc = s.slot (s.sp - 1)
    | .seImm x kk => t.pc = if s.getV x = kk then s.pc + 4 else s.pc + 2
    | .sneImm x kk => t.pc = if s.getV x = kk then s.pc + 2 else s.pc + 4
    | .seReg x y => t.pc = if s.getV x = s.getV y then s.pc + 4 else s.pc + 2
    | .sneReg x y => t.pc = if s.getV x = s.getV y then s.pc + 2 else s.pc + 4
    | .skp _ | .sknp _ => t.pc = s.pc + 2 ∨ t.pc = s.pc + 4
    | .ldVxKey _ =>
      ((∃ k : Fin 16, s.keypad[k] = true) → t.pc = s.pc + 2) ∧ ((∀ k : Fin 16, s.keypad[k] = false) → t.pc = s.pc)
    | _ => t.pc = s.pc + 2

/-- R86: a no-operation does nothing, and the cycle around it advances `PC` by 2 and ticks the timers. -/
def Obligations.NopOnlyAdvancesAndTicks : Prop :=
  (∀ (w : Word) (s : State), exec (.nop w) s = .next s) ∧
    ∀ (s : State) (w : Word), s.fetch = some w → unmapped w = true →
      ∃ t, step s = .next t ∧ t.pc = s.pc + 2 ∧ t.dt.toNat = s.dt.toNat - 1 ∧ t.st.toNat = s.st.toNat - 1 ∧
        SameMemory s t ∧ t = { s with pc := t.pc, dt := t.dt, st := t.st }

/-! ### Control transfer (41_flow.md) -/

/-- R90, R93: the jumps complete in every state and change `PC` alone; the indexed sum is never reduced. -/
def Obligations.JumpsSetThePcAlone : Prop :=
  ∀ (nnn : Addr12) (s : State),
    (∃ t, exec (.jp nnn) s = .next t ∧ t.pc.toNat = nnn.toNat ∧ OnlyPc s t) ∧
      (∃ t, exec (.jpV0 nnn) s = .next t ∧ t.pc.toNat = (s.getV 0).toNat + nnn.toNat ∧ OnlyPc s t)

/-- R91: below capacity a call pushes the address after it and jumps; at capacity it raises `StackOverflow`. The premise is
R20's number of slots, an invariant of every run (`StepKeepsTheInvariant`). -/
def Obligations.CallPushesTheReturnAddress : Prop :=
  ∀ (nnn : Addr12) (s : State), s.stack.length = s.cfg.stackDepth →
    (s.sp < s.cfg.stackDepth →
      ∃ t, exec (.call nnn) s = .next t ∧ t.pc.toNat = nnn.toNat ∧ t.sp = s.sp + 1 ∧ t.slot s.sp = s.pc ∧
        (∀ k, k ≠ s.sp → t.slot k = s.slot k) ∧ SameMemory s t ∧
        t = { s with pc := t.pc, sp := t.sp, stack := t.stack }) ∧
      (s.sp = s.cfg.stackDepth → exec (.call nnn) s = .fault .stackOverflow)

/-- R92: a return pops the address into `PC`, and no slot is cleared; with an empty stack it raises `StackUnderflow`. (In
states that no run reaches, a slot past the list reads as log 23 says.) -/
def Obligations.ReturnPopsTheReturnAddress : Prop :=
  ∀ s : State,
    (s.sp ≠ 0 →
      ∃ t, exec .ret s = .next t ∧ t.sp + 1 = s.sp ∧ t.pc = s.slot t.sp ∧ SameMemory s t ∧
        t = { s with pc := t.pc, sp := t.sp }) ∧
      (s.sp = 0 → exec .ret s = .fault .stackUnderflow)

/-- R26, the last-in-first-out law (decision D5, log 23): whatever happens between a call and a return that leaves `SP` and
the live entries as the call left them (calls that have returned included: they may leave stale slots), the return goes to
the address the call pushed and restores `SP` and the entries below it. So the state after the return again meets what is
asked here of `u`, for the call before. -/
def Obligations.ReturnGoesToTheMostRecentCall : Prop :=
  ∀ (nnn : Addr12) (s t u : State), s.stack.length = s.cfg.stackDepth →
    exec (.call nnn) s = .next t →
      u.sp = t.sp → u.stack.length = t.stack.length → (∀ k, k < t.sp → u.slot k = t.slot k) →
        ∃ r, exec .ret u = .next r ∧ r.pc = s.pc ∧
          r.sp = s.sp ∧ r.stack.length = s.stack.length ∧ ∀ k, k < s.sp → r.slot k = s.slot k

/-- R94, R95, R96, R97: the four skips complete in every state, add 2 to `PC` exactly on their condition, and change nothing
else. -/
def Obligations.SkipsAddTwoOnTheirCondition : Prop :=
  ∀ (x y : Reg) (kk : Byte) (s : State),
    (∃ t, exec (.seImm x kk) s = .next t ∧ t.pc = (if s.getV x = kk then s.pc + 2 else s.pc) ∧ OnlyPc s t) ∧
      (∃ t, exec (.sneImm x kk) s = .next t ∧ t.pc = (if s.getV x = kk then s.pc else s.pc + 2) ∧ OnlyPc s t) ∧
      (∃ t, exec (.seReg x y) s = .next t ∧ t.pc = (if s.getV x = s.getV y then s.pc + 2 else s.pc) ∧ OnlyPc s t) ∧
      (∃ t, exec (.sneReg x y) s = .next t ∧ t.pc = (if s.getV x = s.getV y then s.pc else s.pc + 2) ∧ OnlyPc s t)

/-! ### Registers and arithmetic (42_alu.md) -/

/-- R101, R102, R103: load immediate, add immediate modulo 256 with no flag, register copy; only `V[x]` changes. -/
def Obligations.LoadsAndAddImmediateWriteTheirRegister : Prop :=
  ∀ (x y : Reg) (kk : Byte) (s : State),
    (∃ t, exec (.ldImm x kk) s = .next t ∧ t.getV x = kk ∧ OnlyRegs [x] s t) ∧
      (∃ t, exec (.addImm x kk) s = .next t ∧ (t.getV x).toNat = ((s.getV x).toNat + kk.toNat) % 256 ∧
        OnlyRegs [x] s t) ∧
      (∃ t, exec (.ldReg x y) s = .next t ∧ t.getV x = s.getV y ∧ OnlyRegs [x] s t)

/-- R104, R105, R106, bit by bit; that `VF` is not written is decision D14 (log 15). -/
def Obligations.LogicWritesItsRegisterAndNoFlag : Prop :=
  ∀ (x y : Reg) (s : State),
    (∃ t, exec (.orReg x y) s = .next t ∧
      (∀ k, k < 8 → (t.getV x).getLsbD k = ((s.getV x).getLsbD k || (s.getV y).getLsbD k)) ∧ OnlyRegs [x] s t) ∧
      (∃ t, exec (.andReg x y) s = .next t ∧
        (∀ k, k < 8 → (t.getV x).getLsbD k = ((s.getV x).getLsbD k && (s.getV y).getLsbD k)) ∧ OnlyRegs [x] s t) ∧
      (∃ t, exec (.xorReg x y) s = .next t ∧
        (∀ k, k < 8 → (t.getV x).getLsbD k = ((s.getV x).getLsbD k != (s.getV y).getLsbD k)) ∧ OnlyRegs [x] s t)

/-- R107, R100: `VF` is the carry on every execution; `V[x]` is the sum modulo 256 unless `x = 15`, where the flag lands last
(decision D13, log 14). -/
def Obligations.AddSetsTheCarry : Prop :=
  ∀ (x y : Reg) (s : State),
    ∃ t, exec (.addReg x y) s = .next t ∧
      t.getV 15 = (if 255 < (s.getV x).toNat + (s.getV y).toNat then 1 else 0) ∧
      (x ≠ 15 → (t.getV x).toNat = ((s.getV x).toNat + (s.getV y).toNat) % 256) ∧ OnlyRegs [x, 15] s t

/-- R108, R110, R113, R100: both subtractions wrap modulo 256 and set `VF` on a strict comparison, so equal operands give 0;
with `x = 15` the flag lands last (decision D13, log 14). -/
def Obligations.SubtractionsSetTheStrictBorrow : Prop :=
  ∀ (x y : Reg) (s : State),
    (∃ t, exec (.subReg x y) s = .next t ∧
      t.getV 15 = (if (s.getV y).toNat < (s.getV x).toNat then 1 else 0) ∧
      (x ≠ 15 → ((t.getV x).toNat : Int) = ((s.getV x).toNat - (s.getV y).toNat : Int) % 256) ∧
      OnlyRegs [x, 15] s t) ∧
      (∃ t, exec (.subnReg x y) s = .next t ∧
        t.getV 15 = (if (s.getV x).toNat < (s.getV y).toNat then 1 else 0) ∧
        (x ≠ 15 → ((t.getV x).toNat : Int) = ((s.getV y).toNat - (s.getV x).toNat : Int) % 256) ∧
        OnlyRegs [x, 15] s t)

/-- R109, R111, R100: both shifts move `V[x]` by one bit with zero fill, whatever `y` is, and set `VF` to the bit shifted
out; with `x = 15` the flag lands last (decision D13, log 14). -/
def Obligations.ShiftsMoveOneBitIntoTheFlag : Prop :=
  ∀ (x y : Reg) (s : State),
    (∃ t, exec (.shr x y) s = .next t ∧ (t.getV 15).toNat = (s.getV x).toNat % 2 ∧
      (x ≠ 15 → (t.getV x).toNat = (s.getV x).toNat / 2) ∧ OnlyRegs [x, 15] s t) ∧
      (∃ t, exec (.shl x y) s = .next t ∧ (t.getV 15).toNat = (s.getV x).toNat / 128 ∧
        (x ≠ 15 → (t.getV x).toNat = 2 * (s.getV x).toNat % 256) ∧ OnlyRegs [x, 15] s t)

/-- R112: the result is a draw masked by `kk`, so no bit outside `kk` is set, and one draw is consumed. The draw is the free
value `Config.randomByte` at the model's own counter `draws` (log 6), whatever either is. -/
def Obligations.RandomByteIsMasked : Prop :=
  ∀ (x : Reg) (kk : Byte) (s : State),
    ∃ t, exec (.rnd x kk) s = .next t ∧ t.getV x = Config.randomByte s.draws &&& kk ∧
      (∀ k, kk.getLsbD k = false → (t.getV x).getLsbD k = false) ∧ t.draws = s.draws + 1 ∧
      (∀ r : Reg, r ≠ x → t.getV r = s.getV r) ∧ SameMemory s t ∧ t = { s with v := t.v, draws := t.draws }

/-! ### Index register and memory (43_index_memory.md) -/

/-- R115, R116: `Annn` loads `I`, `Fx1E` adds modulo 65536 with no flag; nothing else changes. -/
def Obligations.IndexLoadAndAddWriteTheIndexAlone : Prop :=
  (∀ (nnn : Addr12) (s : State), ∃ t, exec (.ldI nnn) s = .next t ∧ t.i.toNat = nnn.toNat ∧ OnlyIndex s t) ∧
    ∀ (x : Reg) (s : State),
      ∃ t, exec (.addI x) s = .next t ∧ t.i.toNat = (s.i.toNat + (s.getV x).toNat) % 65536 ∧ OnlyIndex s t

/-- R117 (the whole register, decision D26, log 17): `I` becomes `FONT_BASE + 5 * Vx`; with legal parameters and `Vx` in
0..15 the five bytes there are that digit's glyph after reset. -/
def Obligations.GlyphAddressSelectsTheGlyph : Prop :=
  ∀ (x : Reg) (s : State),
    ∃ t, exec (.ldF x) s = .next t ∧ t.i.toNat = (s.cfg.fontBase + 5 * (s.getV x).toNat) % 65536 ∧ OnlyIndex s t ∧
      (s.cfg.valid = true → (s.getV x).toNat < 16 →
        ∀ r, r < 5 →
          (State.construct s.cfg).memRead (t.i.toNat + r) = s.cfg.fontData[5 * (s.getV x).toNat + r]?)

/-- R118: with `I <= 4093` the three bytes from `I` are the decimal digits, from which `Vx` is rebuilt, and no other byte
changes; else `InvalidMemoryAccess`. -/
def Obligations.DecimalDigitsAreStored : Prop :=
  ∀ (x : Reg) (s : State),
    (s.i.toNat ≤ 4093 →
      ∃ (t : State) (h d o : Byte), exec (.ldB x) s = .next t ∧
        t.memRead s.i.toNat = some h ∧ t.memRead (s.i.toNat + 1) = some d ∧ t.memRead (s.i.toNat + 2) = some o ∧
        h.toNat = (s.getV x).toNat / 100 ∧ d.toNat = (s.getV x).toNat / 10 % 10 ∧ o.toNat = (s.getV x).toNat % 10 ∧
        100 * h.toNat + 10 * d.toNat + o.toNat = (s.getV x).toNat ∧ OnlyMemory s.i.toNat 3 s t) ∧
      (4093 < s.i.toNat → exec (.ldB x) s = .fault .invalidMemoryAccess)

/-- R119: with `I + x <= 4095` the bytes `I`..`I + x` become `V[0]`..`V[x]`, and nothing else changes, `I` included; else
`InvalidMemoryAccess`. -/
def Obligations.RegistersAreStoredFromTheIndex : Prop :=
  ∀ (x : Reg) (s : State),
    (s.i.toNat + x.val ≤ 4095 →
      ∃ t, exec (.storeRegs x) s = .next t ∧
        (∀ k : Reg, k ≤ x → t.memRead (s.i.toNat + k.val) = some (s.getV k)) ∧
        OnlyMemory s.i.toNat (x.val + 1) s t) ∧
      (4095 < s.i.toNat + x.val → exec (.storeRegs x) s = .fault .invalidMemoryAccess)

/-- R120: with `I + x <= 4095` the registers `V[0]`..`V[x]` become the bytes `I`..`I + x`, and nothing else changes, `I`
included; else `InvalidMemoryAccess`. And its law: a load after a store with the same `I` and `x`, those bytes not written
in between, restores `V[0..x]`, whatever else has changed. -/
def Obligations.RegistersAreLoadedFromTheIndex : Prop :=
  (∀ (x : Reg) (s : State),
      (s.i.toNat + x.val ≤ 4095 →
        ∃ t, exec (.loadRegs x) s = .next t ∧
          (∀ k : Reg, k ≤ x → s.memRead (s.i.toNat + k.val) = some (t.getV k)) ∧
          (∀ k : Reg, x < k → t.getV k = s.getV k) ∧ SameMemory s t ∧ t = { s with v := t.v }) ∧
        (4095 < s.i.toNat + x.val → exec (.loadRegs x) s = .fault .invalidMemoryAccess)) ∧
    ∀ (x : Reg) (s t u : State), exec (.storeRegs x) s = .next t → u.i = s.i →
      (∀ k : Reg, k ≤ x → u.memRead (s.i.toNat + k.val) = t.memRead (s.i.toNat + k.val)) →
        ∃ r, exec (.loadRegs x) u = .next r ∧ ∀ k : Reg, k ≤ x → r.getV k = s.getV k

/-- R51 (marked there as derived): a word stored by `Fx55` is the word a fetch from its address then gives. -/
def Obligations.StoredWordIsFetchedNext : Prop :=
  ∀ (x k k' : Reg) (s t u : State), exec (.storeRegs x) s = .next t → k'.val = k.val + 1 → k' ≤ x →
    u.pc.toNat = s.i.toNat + k.val → SameMemory t u → u.fetch = some (wordOfBytes (s.getV k) (s.getV k'))

/-! ### Display (44_display.md) -/

/-- R125: every pixel off, every host cell 0, nothing else changed, `VF` included. -/
def Obligations.ClearTurnsEveryPixelOff : Prop :=
  ∀ s : State,
    ∃ t, exec .cls s = .next t ∧ (∀ y x, pixel t.fb y x = false) ∧ (∀ k, framebufferCell t k = 0) ∧
      SameMemory s t ∧ t = { s with fb := t.fb }

/-- R127 (wrap: decision D10, log 11; bit order: decision D11, log 12): a draw in range flips exactly the pixels its set
sprite bits cover, sets `VF` exactly when one of them was on, and changes nothing else; it needs no memory when `n = 0`;
out of range it raises `InvalidMemoryAccess`. -/
def Obligations.DrawFlipsExactlyTheCoveredPixels : Prop :=
  ∀ (x y : Reg) (n : Fin 16) (s : State),
    (n.val = 0 ∨ s.i.toNat + n.val ≤ 4096 →
      ∃ t, exec (.drw x y n) s = .next t ∧
        (∀ py px, (pixel t.fb py px = true ↔
          (pixel s.fb py px = true ∧ ¬ SpriteCovers s x y n py px) ∨
            (pixel s.fb py px = false ∧ SpriteCovers s x y n py px))) ∧
        ((∃ py px, SpriteCovers s x y n py px ∧ pixel s.fb py px = true) → t.getV 15 = 1) ∧
        ((∀ py px, SpriteCovers s x y n py px → pixel s.fb py px = false) → t.getV 15 = 0) ∧
        (∀ r : Reg, r ≠ 15 → t.getV r = s.getV r) ∧ SameMemory s t ∧ t = { s with fb := t.fb, v := t.v }) ∧
      (0 < n.val → 4096 < s.i.toNat + n.val → exec (.drw x y n) s = .fault .invalidMemoryAccess)

/-- R127 (f): a second identical draw restores the framebuffer; if the covered pixels were off and there is one, the first
draw gives `VF` 0 and the second 1 (the conditions C12 adds). -/
def Obligations.DrawingTwiceRestoresTheScreen : Prop :=
  ∀ (x y : Reg) (n : Fin 16) (s t : State), exec (.drw x y n) s = .next t →
    ∃ u, exec (.drw x y n) { t with v := s.v } = .next u ∧ (∀ py px, pixel u.fb py px = pixel s.fb py px) ∧
      ((∃ py px, SpriteCovers s x y n py px) → (∀ py px, SpriteCovers s x y n py px → pixel s.fb py px = false) →
        t.getV 15 = 0 ∧ u.getV 15 = 1)

/-- R28, the host's view (decision D12, log 13): cell `y * 64 + x` is 1 exactly when pixel `(x, y)` is on, and else 0. -/
def Obligations.FramebufferCellsAreRowMajor : Prop :=
  ∀ (s : State) (y : Fin 32) (x : Fin 64) (k : Fin 2048), k.val = y.val * 64 + x.val →
    framebufferCell s k = if pixel s.fb y x = true then 1 else 0

/-! ### Key latch and timers (45_keypad_timers.md) -/

/-- R135, R136 with R134's selection by the low four bits (decision D15, log 16): the key skips complete in every state, add
2 to `PC` exactly on their condition, and change nothing else. -/
def Obligations.KeySkipsTestTheSelectedKey : Prop :=
  ∀ (x : Reg) (k : Fin 16) (s : State), k.val = (s.getV x).toNat % 16 →
    (∃ t, exec (.skp x) s = .next t ∧ t.pc = (if s.keypad[k] = true then s.pc + 2 else s.pc) ∧ OnlyPc s t) ∧
      (∃ t, exec (.sknp x) s = .next t ∧ t.pc = (if s.keypad[k] = true then s.pc else s.pc + 2) ∧ OnlyPc s t)

/-- R137: with a key pressed, `V[x]` becomes the least pressed key; with none, `PC` goes back by 2, so the whole cycle leaves
`PC` where it was and ticks the timers. -/
def Obligations.KeyWaitTakesTheLeastKeyOrRepeats : Prop :=
  (∀ (x : Reg) (k : Fin 16) (s : State), s.keypad[k] = true → (∀ j : Fin 16, j < k → s.keypad[j] = false) →
      ∃ t, exec (.ldVxKey x) s = .next t ∧ (t.getV x).toNat = k.val ∧ OnlyRegs [x] s t) ∧
    (∀ (x : Reg) (s : State), (∀ k : Fin 16, s.keypad[k] = false) →
      ∃ t, exec (.ldVxKey x) s = .next t ∧ t.pc = s.pc - 2 ∧ OnlyPc s t) ∧
    ∀ (x : Reg) (w : Word) (s : State), s.fetch = some w → decodeWord w = .ldVxKey x →
      (∀ k : Fin 16, s.keypad[k] = false) →
        ∃ t, step s = .next t ∧ t.dt.toNat = s.dt.toNat - 1 ∧ t.st.toNat = s.st.toNat - 1 ∧
          SameMemory s t ∧ t = { s with dt := t.dt, st := t.st }

/-- R138, R139, R140: the timer instructions complete in every state and change their destination alone; at the end of the
cycle the timer written, or read, has ticked. Subtraction is of naturals. -/
def Obligations.TimerInstructionsMoveTheirTimer : Prop :=
  (∀ (x : Reg) (s : State),
      (∃ t, exec (.ldVxDT x) s = .next t ∧ t.getV x = s.dt ∧ OnlyRegs [x] s t) ∧
        (∃ t, exec (.ldDT x) s = .next t ∧ t.dt = s.getV x ∧ SameMemory s t ∧ t = { s with dt := t.dt }) ∧
        (∃ t, exec (.ldST x) s = .next t ∧ t.st = s.getV x ∧ SameMemory s t ∧ t = { s with st := t.st })) ∧
    ∀ (x : Reg) (w : Word) (s : State), s.fetch = some w →
      (decodeWord w = .ldVxDT x →
        ∃ t, step s = .next t ∧ t.getV x = s.dt ∧ t.dt.toNat = (t.getV x).toNat - 1) ∧
        (decodeWord w = .ldDT x → ∃ t, step s = .next t ∧ t.dt.toNat = (s.getV x).toNat - 1) ∧
        (decodeWord w = .ldST x →
          ∃ t, step s = .next t ∧ t.st.toNat = (s.getV x).toNat - 1 ∧
            (soundActive t = true ↔ 1 < (s.getV x).toNat))

/-! ### Rules of the whole machine -/

/-- R23, R26, R27, R28, R29, R31, R40: each store changes only by the instructions that own it; the key latch and the
parameters by none. The counter `draws` is the model's own (log 6). -/
def Obligations.EachStoreHasOnlyItsWriters : Prop :=
  ∀ (i : Instr) (s t : State), exec i s = .next t →
    t.keypad = s.keypad ∧ t.cfg = s.cfg ∧
      (t.i ≠ s.i → (∃ nnn, i = .ldI nnn) ∨ (∃ x, i = .addI x) ∨ ∃ x, i = .ldF x) ∧
      (t.stack ≠ s.stack → ∃ nnn, i = .call nnn) ∧
      (t.sp ≠ s.sp → (∃ nnn, i = .call nnn) ∨ i = .ret) ∧
      (t.dt ≠ s.dt → ∃ x, i = .ldDT x) ∧
      (t.st ≠ s.st → ∃ x, i = .ldST x) ∧
      (t.fb ≠ s.fb → i = .cls ∨ ∃ x y n, i = .drw x y n) ∧
      (t.mem ≠ s.mem → (∃ x, i = .ldB x) ∨ ∃ x, i = .storeRegs x) ∧
      (t.draws ≠ s.draws → ∃ x kk, i = .rnd x kk)

/-- R22 (with decision D14, log 15): `VF` changes only by the six flag-writing instructions, which leave 0 or 1 in it, or as
an ordinary destination. -/
def Obligations.FlagHasOnlyItsWriters : Prop :=
  ∀ (i : Instr) (s t : State), exec i s = .next t →
    match i with
    | .addReg _ _ | .subReg _ _ | .subnReg _ _ | .shr _ _ | .shl _ _ | .drw _ _ _ => t.getV 15 = 0 ∨ t.getV 15 = 1
    | .ldImm x _ | .addImm x _ | .rnd x _ | .ldVxDT x | .ldVxKey x | .loadRegs x => x ≠ 15 → t.getV 15 = s.getV 15
    | .ldReg x _ | .orReg x _ | .andReg x _ | .xorReg x _ => x ≠ 15 → t.getV 15 = s.getV 15
    | _ => t.getV 15 = s.getV 15

/-- R27: no instruction reads `ST`. Two states that differ in `ST` alone end the same way, and in states that differ in `ST`
at most. -/
def Obligations.SoundTimerIsNeverRead : Prop :=
  ∀ (i : Instr) (s : State) (b : Byte),
    (∀ t, exec i s = .next t → ∃ c, exec i { s with st := b } = .next { t with st := c }) ∧
      (∀ f, exec i s = .fault f → exec i { s with st := b } = .fault f)

/-- R26: the value a pop leaves behind is unobservable. States that differ in dead slots alone stay so through every cycle,
and fault alike. -/
def Obligations.DeadStackSlotsAreUnobservable : Prop :=
  ∀ s t : State, State.SameButDeadSlots s t →
    (∀ s', step s = .next s' → ∃ t', step t = .next t' ∧ State.SameButDeadSlots s' t') ∧
      (∀ f, step s = .fault f → step t = .fault f)

/-- R33, R170: the state after `construct()`, for every legal choice of the OPEN parameters. -/
def Obligations.ConstructZeroesAllButFontAndPc : Prop :=
  ∀ cfg : Config, cfg.valid = true →
    (∀ (k : Nat) (h : k < fontSize), (State.construct cfg).memRead (cfg.fontBase + k) = some cfg.fontData[k]) ∧
      (∀ a, a < 4096 → (a < cfg.fontBase ∨ cfg.fontBase + fontSize ≤ a) →
        (State.construct cfg).memRead a = some 0) ∧
      (∀ r, (State.construct cfg).getV r = 0) ∧ (State.construct cfg).i = 0 ∧ (State.construct cfg).pc = 0x200 ∧
      (State.construct cfg).sp = 0 ∧ (∀ k, k < cfg.stackDepth → (State.construct cfg).slot k = 0) ∧
      (State.construct cfg).stack.length = cfg.stackDepth ∧
      (State.construct cfg).dt = 0 ∧ (State.construct cfg).st = 0 ∧
      (∀ y x, pixel (State.construct cfg).fb y x = false) ∧ (∀ k : Fin 16, (State.construct cfg).keypad[k] = false)

/-- The invariant holds after `construct()`, for every legal choice of the OPEN parameters. -/
def Obligations.ConstructMeetsTheInvariant : Prop :=
  (∀ cfg : Config, cfg.valid = true → (State.construct cfg).Inv) ∧ State.reset.Inv

/-- From every state that meets the invariant, a cycle gives a state that meets it: legal parameters, memory in canonical
form, `SP` within capacity, return addresses of at most 4096 (R92), `PC` of at most 0x10FE, so that no `PC` computation
wraps (R25, marked there as derived). -/
def Obligations.StepKeepsTheInvariant : Prop :=
  ∀ s t : State, s.Inv → step s = .next t → t.Inv ∧ t.cfg = s.cfg

/-- Every state any history of host actions reaches meets the invariant and has the parameters it was constructed with. -/
def Obligations.ReachableStatesMeetTheInvariant : Prop :=
  ∀ (cfg : Config) (s : State), cfg.valid = true → State.Reachable cfg s → s.Inv ∧ s.cfg = cfg

/-! ### Load and boot (70_reset_and_hazards.md) -/

/-- R171, R154: an image of at most 3584 bytes is copied to 0x200 and nothing else changes; a longer one raises
`ProgramTooLarge`, and no byte is written. -/
def Obligations.LoadCopiesTheImageOrFails : Prop :=
  ∀ (bytes : List Byte) (s : State),
    (bytes.length ≤ 3584 →
      ∃ t, load bytes s = .next t ∧
        (∀ (k : Nat) (h : k < bytes.length), t.memRead (0x200 + k) = some bytes[k]) ∧
        OnlyMemory 0x200 bytes.length s t) ∧
      (3584 < bytes.length →
        load bytes s = .fault .programTooLarge ∧ stateAfter s (act (.load bytes) s) = s)

/-- R53, R41: with legal parameters no load changes a byte of the font. -/
def Obligations.LoadLeavesTheFont : Prop :=
  ∀ (bytes : List Byte) (s : State) (k : Nat), s.cfg.valid = true → k < fontSize →
    (stateAfter s (act (.load bytes) s)).memRead (s.cfg.fontBase + k) = s.memRead (s.cfg.fontBase + k)

/-- R173, R68 (the word 0x0000 is an alias of `CLS`: decision D9, log 10; a cycle with nothing loaded: U17, log 29): from
every state whose two bytes at `PC` are zero, the cycle turns every pixel off, adds 2 to `PC`, ticks both timers and changes
nothing else. -/
def Obligations.ZeroWordTurnsEveryPixelOff : Prop :=
  ∀ s : State, s.memRead s.pc.toNat = some 0 → s.memRead (s.pc.toNat + 1) = some 0 →
    ∃ t, step s = .next t ∧ (∀ y x, pixel t.fb y x = false) ∧ t.pc = s.pc + 2 ∧ t.dt.toNat = s.dt.toNat - 1 ∧
      t.st.toNat = s.st.toNat - 1 ∧ SameMemory s t ∧ t = { s with fb := t.fb, pc := t.pc, dt := t.dt, st := t.st }

/-- The word `withFetchWord` places is the next one fetched, from every state (log 26). -/
def Obligations.PlacedWordIsFetchedNext : Prop :=
  ∀ (s : State) (w : Nat), (s.withFetchWord 16 w).fetch = some (BitVec.ofNat 16 w)
end

