-- ==== Sys2Proof/Laws/Decode.lean ====
section
/-! SUPPORT. Fields of the four encoding formats (30_encoding.md R61, R62), and the two bytes of a word (20_memory.md
R44). -/

namespace Sys2Proof

/-! ### Fields as numbers -/

theorem opOf_eq (w : Word) : opOf w = w.toNat / 4096 := by
  have := w.isLt
  simp only [opOf, BitVec.extractLsb'_toNat, Nat.shiftRight_eq_div_pow]
  omega

theorem xOf_val (w : Word) : (xOf w).val = w.toNat / 256 % 16 := by
  simp [xOf, Nat.shiftRight_eq_div_pow]

theorem yOf_val (w : Word) : (yOf w).val = w.toNat / 16 % 16 := by
  simp [yOf, Nat.shiftRight_eq_div_pow]

theorem nOf_val (w : Word) : (nOf w).val = w.toNat % 16 := by
  simp [nOf]

theorem kkOf_toNat (w : Word) : (kkOf w).toNat = w.toNat % 256 := by
  simp [kkOf]

theorem nnnOf_toNat (w : Word) : (nnnOf w).toNat = w.toNat % 4096 := by
  simp [nnnOf]

/-! ### Formats as numbers -/

theorem formatNNN_toNat (op : Nat) (h : op < 16) (nnn : Addr12) :
    (formatNNN op nnn).toNat = op * 4096 + nnn.toNat := by
  have := nnn.isLt
  simp only [formatNNN, BitVec.toNat_append, BitVec.toNat_ofNat]
  rw [← Nat.shiftLeft_add_eq_or_of_lt this, Nat.shiftLeft_eq]
  omega

theorem nibbles_toNat (a b : Nat) (ha : a < 16) (hb : b < 16) :
    (BitVec.ofNat 4 a ++ BitVec.ofNat 4 b : BitVec 8).toNat = a * 16 + b := by
  rw [BitVec.toNat_append, ← Nat.shiftLeft_add_eq_or_of_lt (BitVec.isLt _), Nat.shiftLeft_eq]
  simp only [BitVec.toNat_ofNat]
  omega

theorem formatXKK_toNat (op : Nat) (h : op < 16) (x : Reg) (kk : Byte) :
    (formatXKK op x kk).toNat = op * 4096 + x.val * 256 + kk.toNat := by
  have := kk.isLt
  rw [formatXKK, BitVec.toNat_append, ← Nat.shiftLeft_add_eq_or_of_lt this, Nat.shiftLeft_eq,
    nibbles_toNat op x.val h x.isLt]
  omega

theorem formatXYN_toNat (op : Nat) (h : op < 16) (x y : Reg) (n : Nat) (hn : n < 16) :
    (formatXYN op x y n).toNat = op * 4096 + x.val * 256 + y.val * 16 + n := by
  rw [formatXYN, BitVec.toNat_append, ← Nat.shiftLeft_add_eq_or_of_lt (BitVec.isLt _), Nat.shiftLeft_eq,
    nibbles_toNat op x.val h x.isLt, nibbles_toNat y.val n y.isLt hn]
  omega

theorem formatXSS_toNat (op : Nat) (h : op < 16) (x : Reg) (sub : Nat) (hs : sub < 256) :
    (formatXSS op x sub).toNat = op * 4096 + x.val * 256 + sub := by
  rw [formatXSS, formatXKK_toNat op h]
  simp only [BitVec.toNat_ofNat]
  omega

/-! ### The two bytes of a word -/

theorem wordOfBytes_toNat (hi lo : Byte) : (wordOfBytes hi lo).toNat = hi.toNat * 256 + lo.toNat := by
  rw [wordOfBytes, BitVec.toNat_append, ← Nat.shiftLeft_add_eq_or_of_lt lo.isLt, Nat.shiftLeft_eq]

/-- Joining the two bytes of a word gives the word back (R44). -/
theorem wordOfBytes_bytes (w : Word) : wordOfBytes (w.extractLsb' 8 8) (w.extractLsb' 0 8) = w := by
  apply BitVec.eq_of_toNat_eq
  have := w.isLt
  rw [wordOfBytes_toNat]
  simp only [BitVec.extractLsb'_toNat, Nat.shiftRight_eq_div_pow]
  omega

theorem decodeBytes_bytesOfWord (w : Word) (rest : List Byte) :
    decodeBytes (bytesOfWord w ++ rest) = .ok (decodeWord w, rest) := by
  simp [bytesOfWord, decodeBytes, wordOfBytes_bytes]

/-- What the decoder reads from a row's word of 16 bits. -/
theorem decodeTableWord_eq (nbits w : Nat) : decodeTableWord nbits w = some (decodeWord (tableWord nbits w)) := by
  have := decodeBytes_bytesOfWord (tableWord nbits w) []
  rw [List.append_nil] at this
  rw [decodeTableWord, this]

/-- Every list of at least two bytes decodes (R60, R65). -/
theorem decodeBytes_cons_cons (hi lo : Byte) (rest : List Byte) :
    decodeBytes (hi :: lo :: rest) = .ok (decodeWord (wordOfBytes hi lo), rest) := rfl

/-! ### The fields of each format -/

theorem opOf_formatNNN (op : Nat) (h : op < 16) (nnn : Addr12) : opOf (formatNNN op nnn) = op := by
  have := nnn.isLt
  rw [opOf_eq, formatNNN_toNat op h]
  omega

theorem nnnOf_formatNNN (op : Nat) (h : op < 16) (nnn : Addr12) : nnnOf (formatNNN op nnn) = nnn := by
  apply BitVec.eq_of_toNat_eq
  have := nnn.isLt
  rw [nnnOf_toNat, formatNNN_toNat op h]
  omega

theorem opOf_formatXKK (op : Nat) (h : op < 16) (x : Reg) (kk : Byte) : opOf (formatXKK op x kk) = op := by
  have := kk.isLt
  have := x.isLt
  rw [opOf_eq, formatXKK_toNat op h]
  omega

theorem xOf_formatXKK (op : Nat) (h : op < 16) (x : Reg) (kk : Byte) : xOf (formatXKK op x kk) = x := by
  apply Fin.ext
  have := kk.isLt
  have := x.isLt
  rw [xOf_val, formatXKK_toNat op h]
  omega

theorem kkOf_formatXKK (op : Nat) (h : op < 16) (x : Reg) (kk : Byte) : kkOf (formatXKK op x kk) = kk := by
  apply BitVec.eq_of_toNat_eq
  have := kk.isLt
  rw [kkOf_toNat, formatXKK_toNat op h]
  omega

theorem opOf_formatXYN (op : Nat) (h : op < 16) (x y : Reg) (n : Nat) (hn : n < 16) :
    opOf (formatXYN op x y n) = op := by
  have := x.isLt
  have := y.isLt
  rw [opOf_eq, formatXYN_toNat op h x y n hn]
  omega

theorem xOf_formatXYN (op : Nat) (h : op < 16) (x y : Reg) (n : Nat) (hn : n < 16) :
    xOf (formatXYN op x y n) = x := by
  apply Fin.ext
  have := x.isLt
  have := y.isLt
  rw [xOf_val, formatXYN_toNat op h x y n hn]
  omega

theorem yOf_formatXYN (op : Nat) (h : op < 16) (x y : Reg) (n : Nat) (hn : n < 16) :
    yOf (formatXYN op x y n) = y := by
  apply Fin.ext
  have := y.isLt
  rw [yOf_val, formatXYN_toNat op h x y n hn]
  omega

theorem nOf_formatXYN (op : Nat) (h : op < 16) (x y : Reg) (n : Nat) (hn : n < 16) :
    (nOf (formatXYN op x y n)).val = n := by
  rw [nOf_val, formatXYN_toNat op h x y n hn]
  omega

theorem opOf_formatXSS (op : Nat) (h : op < 16) (x : Reg) (sub : Nat) : opOf (formatXSS op x sub) = op :=
  opOf_formatXKK op h x _

theorem xOf_formatXSS (op : Nat) (h : op < 16) (x : Reg) (sub : Nat) : xOf (formatXSS op x sub) = x :=
  xOf_formatXKK op h x _

theorem kkOf_formatXSS (op : Nat) (h : op < 16) (x : Reg) (sub : Nat) (hs : sub < 256) :
    (kkOf (formatXSS op x sub)).toNat = sub := by
  rw [kkOf_toNat, formatXSS_toNat op h x sub hs]
  omega

theorem nOf_formatXSS (op : Nat) (h : op < 16) (x : Reg) (sub : Nat) (hs : sub < 256) :
    (nOf (formatXSS op x sub)).val = sub % 16 := by
  rw [nOf_val, formatXSS_toNat op h x sub hs]
  omega

/-! ### The masks of R66 read the dispatch key -/

/-- Mask 0xF000 reads the leading nibble. -/
theorem and_F000_eq_iff (w : Word) (op : Nat) (h : op < 16) :
    w &&& 0xF000 = BitVec.ofNat 16 (op * 4096) ↔ opOf w = op := by
  have e : (w &&& 0xF000).toNat = opOf w * 4096 := by
    have : w &&& 0xF000 = (w.extractLsb' 12 4 ++ 0#12 : BitVec 16) := by
      ext i hi
      rw [BitVec.getElem_and, BitVec.getElem_append]
      interval_cases i <;> simp
    rw [this, BitVec.toNat_append]
    simp [opOf, Nat.shiftLeft_eq]
  have hl := (w.extractLsb' 12 4).isLt
  rw [← BitVec.toNat_inj, e, BitVec.toNat_ofNat]
  simp only [opOf] at *
  omega

/-- Mask 0xF00F reads the leading nibble and the low 4 bits. -/
theorem and_F00F_eq_iff (w : Word) (op n : Nat) (h : op < 16) (hn : n < 16) :
    w &&& 0xF00F = BitVec.ofNat 16 (op * 4096 + n) ↔ opOf w = op ∧ (nOf w).val = n := by
  have e : (w &&& 0xF00F).toNat = opOf w * 4096 + (nOf w).val := by
    have : w &&& 0xF00F = (w.extractLsb' 12 4 ++ (w.extractLsb' 0 4).setWidth 12 : BitVec 16) := by
      ext i hi
      rw [BitVec.getElem_and, BitVec.getElem_append]
      interval_cases i <;> simp
    rw [this, BitVec.toNat_append, ← Nat.shiftLeft_add_eq_or_of_lt (BitVec.isLt _)]
    simp [opOf, nOf, Nat.shiftLeft_eq]
    omega
  have hl := (w.extractLsb' 12 4).isLt
  have hm := (nOf w).isLt
  rw [← BitVec.toNat_inj, e, BitVec.toNat_ofNat]
  simp only [opOf] at *
  omega

/-- Mask 0xF0FF reads the leading nibble and the low 8 bits. -/
theorem and_F0FF_eq_iff (w : Word) (op k : Nat) (h : op < 16) (hk : k < 256) :
    w &&& 0xF0FF = BitVec.ofNat 16 (op * 4096 + k) ↔ opOf w = op ∧ (kkOf w).toNat = k := by
  have e : (w &&& 0xF0FF).toNat = opOf w * 4096 + (kkOf w).toNat := by
    have : w &&& 0xF0FF = (w.extractLsb' 12 4 ++ (w.extractLsb' 0 8).setWidth 12 : BitVec 16) := by
      ext i hi
      rw [BitVec.getElem_and, BitVec.getElem_append]
      interval_cases i <;> simp
    rw [this, BitVec.toNat_append, ← Nat.shiftLeft_add_eq_or_of_lt (BitVec.isLt _)]
    simp [opOf, kkOf, Nat.shiftLeft_eq]
    omega
  have hl := (w.extractLsb' 12 4).isLt
  have hm := (kkOf w).isLt
  rw [← BitVec.toNat_inj, e, BitVec.toNat_ofNat]
  simp only [opOf] at *
  omega

end Sys2Proof
end

