-- ==== Sys2Proof/Laws/State.lean ====
section
/-! SUPPORT. One lemma per field per update of the state, so that no later proof unfolds a record update. -/

namespace Sys2Proof.Machine

@[simp] theorem State.setV_cfg (s : State) (x : Reg) (b : Byte) : (s.setV x b).cfg = s.cfg := rfl
@[simp] theorem State.setV_mem (s : State) (x : Reg) (b : Byte) : (s.setV x b).mem = s.mem := rfl
@[simp] theorem State.setV_i (s : State) (x : Reg) (b : Byte) : (s.setV x b).i = s.i := rfl
@[simp] theorem State.setV_pc (s : State) (x : Reg) (b : Byte) : (s.setV x b).pc = s.pc := rfl
@[simp] theorem State.setV_stack (s : State) (x : Reg) (b : Byte) : (s.setV x b).stack = s.stack := rfl
@[simp] theorem State.setV_sp (s : State) (x : Reg) (b : Byte) : (s.setV x b).sp = s.sp := rfl
@[simp] theorem State.setV_dt (s : State) (x : Reg) (b : Byte) : (s.setV x b).dt = s.dt := rfl
@[simp] theorem State.setV_st (s : State) (x : Reg) (b : Byte) : (s.setV x b).st = s.st := rfl
@[simp] theorem State.setV_fb (s : State) (x : Reg) (b : Byte) : (s.setV x b).fb = s.fb := rfl
@[simp] theorem State.setV_keypad (s : State) (x : Reg) (b : Byte) : (s.setV x b).keypad = s.keypad := rfl
@[simp] theorem State.setV_draws (s : State) (x : Reg) (b : Byte) : (s.setV x b).draws = s.draws := rfl

@[simp] theorem State.setVFlag_cfg (s : State) (x : Reg) (r : Byte) (f : Bool) : (s.setVFlag x r f).cfg = s.cfg := rfl
@[simp] theorem State.setVFlag_mem (s : State) (x : Reg) (r : Byte) (f : Bool) : (s.setVFlag x r f).mem = s.mem := rfl
@[simp] theorem State.setVFlag_i (s : State) (x : Reg) (r : Byte) (f : Bool) : (s.setVFlag x r f).i = s.i := rfl
@[simp] theorem State.setVFlag_pc (s : State) (x : Reg) (r : Byte) (f : Bool) : (s.setVFlag x r f).pc = s.pc := rfl
@[simp] theorem State.setVFlag_stack (s : State) (x : Reg) (r : Byte) (f : Bool) : (s.setVFlag x r f).stack = s.stack := rfl
@[simp] theorem State.setVFlag_sp (s : State) (x : Reg) (r : Byte) (f : Bool) : (s.setVFlag x r f).sp = s.sp := rfl
@[simp] theorem State.setVFlag_dt (s : State) (x : Reg) (r : Byte) (f : Bool) : (s.setVFlag x r f).dt = s.dt := rfl
@[simp] theorem State.setVFlag_st (s : State) (x : Reg) (r : Byte) (f : Bool) : (s.setVFlag x r f).st = s.st := rfl
@[simp] theorem State.setVFlag_fb (s : State) (x : Reg) (r : Byte) (f : Bool) : (s.setVFlag x r f).fb = s.fb := rfl
@[simp] theorem State.setVFlag_keypad (s : State) (x : Reg) (r : Byte) (f : Bool) : (s.setVFlag x r f).keypad = s.keypad := rfl
@[simp] theorem State.setVFlag_draws (s : State) (x : Reg) (r : Byte) (f : Bool) : (s.setVFlag x r f).draws = s.draws := rfl

@[simp] theorem State.poke_cfg (s : State) (a : Nat) (b : Byte) : (s.poke a b).cfg = s.cfg := rfl
@[simp] theorem State.poke_v (s : State) (a : Nat) (b : Byte) : (s.poke a b).v = s.v := rfl
@[simp] theorem State.poke_i (s : State) (a : Nat) (b : Byte) : (s.poke a b).i = s.i := rfl
@[simp] theorem State.poke_pc (s : State) (a : Nat) (b : Byte) : (s.poke a b).pc = s.pc := rfl
@[simp] theorem State.poke_stack (s : State) (a : Nat) (b : Byte) : (s.poke a b).stack = s.stack := rfl
@[simp] theorem State.poke_sp (s : State) (a : Nat) (b : Byte) : (s.poke a b).sp = s.sp := rfl
@[simp] theorem State.poke_dt (s : State) (a : Nat) (b : Byte) : (s.poke a b).dt = s.dt := rfl
@[simp] theorem State.poke_st (s : State) (a : Nat) (b : Byte) : (s.poke a b).st = s.st := rfl
@[simp] theorem State.poke_fb (s : State) (a : Nat) (b : Byte) : (s.poke a b).fb = s.fb := rfl
@[simp] theorem State.poke_keypad (s : State) (a : Nat) (b : Byte) : (s.poke a b).keypad = s.keypad := rfl
@[simp] theorem State.poke_draws (s : State) (a : Nat) (b : Byte) : (s.poke a b).draws = s.draws := rfl

@[simp] theorem State.advance_cfg (s : State) : s.advance.cfg = s.cfg := rfl
@[simp] theorem State.advance_mem (s : State) : s.advance.mem = s.mem := rfl
@[simp] theorem State.advance_v (s : State) : s.advance.v = s.v := rfl
@[simp] theorem State.advance_i (s : State) : s.advance.i = s.i := rfl
@[simp] theorem State.advance_stack (s : State) : s.advance.stack = s.stack := rfl
@[simp] theorem State.advance_sp (s : State) : s.advance.sp = s.sp := rfl
@[simp] theorem State.advance_dt (s : State) : s.advance.dt = s.dt := rfl
@[simp] theorem State.advance_st (s : State) : s.advance.st = s.st := rfl
@[simp] theorem State.advance_fb (s : State) : s.advance.fb = s.fb := rfl
@[simp] theorem State.advance_keypad (s : State) : s.advance.keypad = s.keypad := rfl
@[simp] theorem State.advance_draws (s : State) : s.advance.draws = s.draws := rfl

@[simp] theorem State.tick_cfg (s : State) : s.tick.cfg = s.cfg := rfl
@[simp] theorem State.tick_mem (s : State) : s.tick.mem = s.mem := rfl
@[simp] theorem State.tick_v (s : State) : s.tick.v = s.v := rfl
@[simp] theorem State.tick_i (s : State) : s.tick.i = s.i := rfl
@[simp] theorem State.tick_pc (s : State) : s.tick.pc = s.pc := rfl
@[simp] theorem State.tick_stack (s : State) : s.tick.stack = s.stack := rfl
@[simp] theorem State.tick_sp (s : State) : s.tick.sp = s.sp := rfl
@[simp] theorem State.tick_fb (s : State) : s.tick.fb = s.fb := rfl
@[simp] theorem State.tick_keypad (s : State) : s.tick.keypad = s.keypad := rfl
@[simp] theorem State.tick_draws (s : State) : s.tick.draws = s.draws := rfl

@[simp] theorem State.skipIf_cfg (s : State) (c : Bool) : (s.skipIf c).cfg = s.cfg := by cases c <;> rfl
@[simp] theorem State.skipIf_mem (s : State) (c : Bool) : (s.skipIf c).mem = s.mem := by cases c <;> rfl
@[simp] theorem State.skipIf_v (s : State) (c : Bool) : (s.skipIf c).v = s.v := by cases c <;> rfl
@[simp] theorem State.skipIf_i (s : State) (c : Bool) : (s.skipIf c).i = s.i := by cases c <;> rfl
@[simp] theorem State.skipIf_stack (s : State) (c : Bool) : (s.skipIf c).stack = s.stack := by cases c <;> rfl
@[simp] theorem State.skipIf_sp (s : State) (c : Bool) : (s.skipIf c).sp = s.sp := by cases c <;> rfl
@[simp] theorem State.skipIf_dt (s : State) (c : Bool) : (s.skipIf c).dt = s.dt := by cases c <;> rfl
@[simp] theorem State.skipIf_st (s : State) (c : Bool) : (s.skipIf c).st = s.st := by cases c <;> rfl
@[simp] theorem State.skipIf_fb (s : State) (c : Bool) : (s.skipIf c).fb = s.fb := by cases c <;> rfl
@[simp] theorem State.skipIf_keypad (s : State) (c : Bool) : (s.skipIf c).keypad = s.keypad := by cases c <;> rfl
@[simp] theorem State.skipIf_draws (s : State) (c : Bool) : (s.skipIf c).draws = s.draws := by cases c <;> rfl

@[simp] theorem State.advance_pc (s : State) : s.advance.pc = s.pc + 2 := rfl
@[simp] theorem State.tick_dt (s : State) : s.tick.dt = tickTimer s.dt := rfl
@[simp] theorem State.tick_st (s : State) : s.tick.st = tickTimer s.st := rfl
@[simp] theorem State.poke_mem (s : State) (a : Nat) (b : Byte) :
    (s.poke a b).mem = Memory.write s.cfg s.mem a b := rfl
@[simp] theorem State.skipIf_pc (s : State) (c : Bool) : (s.skipIf c).pc = if c then s.pc + 2 else s.pc := by
  cases c <;> rfl

/-- `pokeList` changes nothing but memory. -/
theorem State.pokeList_eq (s : State) (base : Nat) (bs : List Byte) :
    s.pokeList base bs = { s with mem := (s.pokeList base bs).mem } := by
  induction bs generalizing s base with
  | nil => rfl
  | cons b rest ih =>
    simp only [State.pokeList]
    rw [ih]
    rfl

/-- `setRegsFrom` changes nothing but the general registers. -/
theorem State.setRegsFrom_eq (s : State) (k : Nat) (bs : List Byte) :
    s.setRegsFrom k bs = { s with v := (s.setRegsFrom k bs).v } := by
  induction bs generalizing s k with
  | nil => rfl
  | cons b rest ih =>
    simp only [State.setRegsFrom]
    rw [ih]

@[simp] theorem State.pokeList_cfg (s : State) (base : Nat) (bs : List Byte) : (s.pokeList base bs).cfg = s.cfg := by rw [State.pokeList_eq]
@[simp] theorem State.pokeList_v (s : State) (base : Nat) (bs : List Byte) : (s.pokeList base bs).v = s.v := by rw [State.pokeList_eq]
@[simp] theorem State.pokeList_i (s : State) (base : Nat) (bs : List Byte) : (s.pokeList base bs).i = s.i := by rw [State.pokeList_eq]
@[simp] theorem State.pokeList_pc (s : State) (base : Nat) (bs : List Byte) : (s.pokeList base bs).pc = s.pc := by rw [State.pokeList_eq]
@[simp] theorem State.pokeList_stack (s : State) (base : Nat) (bs : List Byte) : (s.pokeList base bs).stack = s.stack := by rw [State.pokeList_eq]
@[simp] theorem State.pokeList_sp (s : State) (base : Nat) (bs : List Byte) : (s.pokeList base bs).sp = s.sp := by rw [State.pokeList_eq]
@[simp] theorem State.pokeList_dt (s : State) (base : Nat) (bs : List Byte) : (s.pokeList base bs).dt = s.dt := by rw [State.pokeList_eq]
@[simp] theorem State.pokeList_st (s : State) (base : Nat) (bs : List Byte) : (s.pokeList base bs).st = s.st := by rw [State.pokeList_eq]
@[simp] theorem State.pokeList_fb (s : State) (base : Nat) (bs : List Byte) : (s.pokeList base bs).fb = s.fb := by rw [State.pokeList_eq]
@[simp] theorem State.pokeList_keypad (s : State) (base : Nat) (bs : List Byte) : (s.pokeList base bs).keypad = s.keypad := by rw [State.pokeList_eq]
@[simp] theorem State.pokeList_draws (s : State) (base : Nat) (bs : List Byte) : (s.pokeList base bs).draws = s.draws := by rw [State.pokeList_eq]

@[simp] theorem State.setRegsFrom_cfg (s : State) (k : Nat) (bs : List Byte) : (s.setRegsFrom k bs).cfg = s.cfg := by rw [State.setRegsFrom_eq]
@[simp] theorem State.setRegsFrom_mem (s : State) (k : Nat) (bs : List Byte) : (s.setRegsFrom k bs).mem = s.mem := by rw [State.setRegsFrom_eq]
@[simp] theorem State.setRegsFrom_i (s : State) (k : Nat) (bs : List Byte) : (s.setRegsFrom k bs).i = s.i := by rw [State.setRegsFrom_eq]
@[simp] theorem State.setRegsFrom_pc (s : State) (k : Nat) (bs : List Byte) : (s.setRegsFrom k bs).pc = s.pc := by rw [State.setRegsFrom_eq]
@[simp] theorem State.setRegsFrom_stack (s : State) (k : Nat) (bs : List Byte) : (s.setRegsFrom k bs).stack = s.stack := by rw [State.setRegsFrom_eq]
@[simp] theorem State.setRegsFrom_sp (s : State) (k : Nat) (bs : List Byte) : (s.setRegsFrom k bs).sp = s.sp := by rw [State.setRegsFrom_eq]
@[simp] theorem State.setRegsFrom_dt (s : State) (k : Nat) (bs : List Byte) : (s.setRegsFrom k bs).dt = s.dt := by rw [State.setRegsFrom_eq]
@[simp] theorem State.setRegsFrom_st (s : State) (k : Nat) (bs : List Byte) : (s.setRegsFrom k bs).st = s.st := by rw [State.setRegsFrom_eq]
@[simp] theorem State.setRegsFrom_fb (s : State) (k : Nat) (bs : List Byte) : (s.setRegsFrom k bs).fb = s.fb := by rw [State.setRegsFrom_eq]
@[simp] theorem State.setRegsFrom_keypad (s : State) (k : Nat) (bs : List Byte) : (s.setRegsFrom k bs).keypad = s.keypad := by rw [State.setRegsFrom_eq]
@[simp] theorem State.setRegsFrom_draws (s : State) (k : Nat) (bs : List Byte) : (s.setRegsFrom k bs).draws = s.draws := by rw [State.setRegsFrom_eq]

end Sys2Proof.Machine
end

