-- ==== Sys2Proof/Laws/Registers.lean ====
section
/-! SUPPORT. What reading a general register gives after each operation that writes one (10_state.md R21, R22). -/

namespace Sys2Proof.Machine

/-- Two states with the same registers read the same. -/
theorem State.getV_congr {s t : State} (h : t.v = s.v) (x : Reg) : t.getV x = s.getV x := by
  simp [State.getV, h]

theorem State.ext_getV {s t : State} (h : ∀ r, t.getV r = s.getV r) : t.v = s.v := by
  apply Vector.ext
  intro k hk
  exact h ⟨k, hk⟩

theorem State.getV_setV (s : State) (x r : Reg) (b : Byte) :
    (s.setV x b).getV r = if r = x then b else s.getV r := by
  simp only [State.getV, State.setV, Fin.getElem_fin, Vector.getElem_set]
  by_cases h : r = x
  · simp [h]
  · have : ¬ x.val = r.val := fun e => h (Fin.ext e.symm)
    simp [h, this]

@[simp] theorem State.getV_setV_self (s : State) (x : Reg) (b : Byte) : (s.setV x b).getV x = b := by
  simp [State.getV_setV]

theorem State.getV_setV_of_ne (s : State) {x r : Reg} (b : Byte) (h : r ≠ x) :
    (s.setV x b).getV r = s.getV r := by
  simp [State.getV_setV, h]

/-- The flag lands last: with `x = 15` the result is overwritten (42_alu.md R100). -/
theorem State.getV_setVFlag (s : State) (x r : Reg) (b : Byte) (f : Bool) :
    (s.setVFlag x b f).getV r = if r = flagReg then flagByte f else if r = x then b else s.getV r := by
  simp [State.setVFlag, State.getV_setV]

@[simp] theorem State.getV_advance (s : State) (x : Reg) : s.advance.getV x = s.getV x := rfl
@[simp] theorem State.getV_tick (s : State) (x : Reg) : s.tick.getV x = s.getV x := rfl
@[simp] theorem State.getV_poke (s : State) (a : Nat) (b : Byte) (x : Reg) : (s.poke a b).getV x = s.getV x := rfl
@[simp] theorem State.getV_skipIf (s : State) (c : Bool) (x : Reg) : (s.skipIf c).getV x = s.getV x :=
  State.getV_congr (by simp) x
@[simp] theorem State.getV_pokeList (s : State) (base : Nat) (bs : List Byte) (x : Reg) :
    (s.pokeList base bs).getV x = s.getV x :=
  State.getV_congr (by simp) x

@[simp] theorem State.firstRegs_length (s : State) (x : Reg) : (s.firstRegs x).length = x.val + 1 := by
  simp [State.firstRegs]

/-- Entry `k` of `V[0]`..`V[x]` is `V[k]` (43_index_memory.md R119). -/
theorem State.firstRegs_getD (s : State) (x k : Reg) (h : k ≤ x) : (s.firstRegs x).getD k.val 0 = s.getV k := by
  have hk : k.val < x.val + 1 := Nat.lt_succ_of_le h
  simp [State.firstRegs, State.getV, List.getD_eq_getElem?_getD, hk]

/-- Writing a list of registers from index `k` up sets exactly those registers (R120). -/
theorem State.getV_setRegsFrom (s : State) (k : Nat) (bs : List Byte) (r : Reg) :
    (s.setRegsFrom k bs).getV r =
      if k ≤ r.val ∧ r.val < k + bs.length then bs.getD (r.val - k) 0 else s.getV r := by
  induction bs generalizing s k with
  | nil =>
    have : ¬ (k ≤ r.val ∧ r.val < k) := by omega
    simp [State.setRegsFrom, this]
  | cons b rest ih =>
    rw [State.setRegsFrom, ih]
    have hget : ({ s with v := s.v.setIfInBounds k b } : State).getV r = if k = r.val then b else s.getV r := by
      simp [State.getV, Vector.getElem_setIfInBounds]
    rw [hget]
    rcases Nat.lt_trichotomy k r.val with h | h | h
    · have e : r.val - k = (r.val - (k + 1)) + 1 := by omega
      by_cases hlt : r.val < k + 1 + rest.length
      · have h1 : k + 1 ≤ r.val ∧ r.val < k + 1 + rest.length := ⟨h, hlt⟩
        have h2 : k ≤ r.val ∧ r.val < k + (b :: rest).length := by simp; omega
        rw [if_pos h1, if_pos h2, e, List.getD_cons_succ]
      · have h1 : ¬ (k + 1 ≤ r.val ∧ r.val < k + 1 + rest.length) := fun h => hlt h.2
        have h2 : ¬ (k ≤ r.val ∧ r.val < k + (b :: rest).length) := by simp; omega
        rw [if_neg h1, if_neg h2, if_neg (by omega)]
    · have h1 : ¬ (k + 1 ≤ r.val ∧ r.val < k + 1 + rest.length) := by omega
      have h2 : k ≤ r.val ∧ r.val < k + (b :: rest).length := by simp; omega
      rw [if_neg h1, if_pos h2, if_pos h, h]
      simp
    · have h1 : ¬ (k + 1 ≤ r.val ∧ r.val < k + 1 + rest.length) := by omega
      have h2 : ¬ (k ≤ r.val ∧ r.val < k + (b :: rest).length) := by omega
      rw [if_neg h1, if_neg h2, if_neg (by omega)]

end Sys2Proof.Machine
end

