-- ==== Sys2Proof/Laws/Memory.lean ====
section
/-! SUPPORT. The laws of memory: a read after a write, what a store of several bytes changes, and that every memory
operation keeps the canonical form (20_memory.md R40 to R46). -/

namespace Sys2Proof.Machine

/-! ### One byte -/

theorem Memory.read_erase (cfg : Config) (m : Memory) (a b : Nat) :
    Memory.read cfg (Memory.erase m a) b = if b = a then Memory.unlisted cfg b else Memory.read cfg m b := by
  induction m with
  | nil => simp [Memory.erase, Memory.read]
  | cons c rest ih =>
    obtain ⟨k, w⟩ := c
    by_cases hk : k = a <;> by_cases hb : k = b <;> simp_all [Memory.erase, Memory.read]

theorem Memory.read_insert (cfg : Config) (m : Memory) (a b : Nat) (w : Byte)
    (h : Memory.read cfg m a = Memory.unlisted cfg a) (hm : ∀ c ∈ m, c.1 ≠ a) :
    Memory.read cfg (Memory.insert m a w) b = if b = a then w else Memory.read cfg m b := by
  induction m with
  | nil =>
    by_cases hb : a = b
    · simp [Memory.insert, Memory.read, hb]
    · simp [Memory.insert, Memory.read, hb, Ne.symm hb]
  | cons c rest ih =>
    obtain ⟨k, u⟩ := c
    have hk : k ≠ a := hm (k, u) (by simp)
    have ih' := ih (by simpa [Memory.read, hk] using h) (fun c hc => hm c (by simp [hc]))
    by_cases hlt : a < k
    · by_cases hb : a = b
      · subst hb
        simp [Memory.insert, Memory.read, hlt]
      · simp [Memory.insert, Memory.read, hlt, hb, Ne.symm hb]
    · by_cases hb : k = b
      · subst hb
        simp [Memory.insert, Memory.read, hlt, hk]
      · simp [Memory.insert, Memory.read, hlt, hb, ih']

theorem Memory.not_mem_erase (m : Memory) (a : Nat) : ∀ c ∈ Memory.erase m a, c.1 ≠ a := by
  induction m with
  | nil => simp [Memory.erase]
  | cons c rest ih =>
    obtain ⟨k, u⟩ := c
    by_cases hk : k = a
    · simpa [Memory.erase, hk] using ih
    · simpa [Memory.erase, hk] using ih

/-- A read after a write: the byte written at its address, every other byte as before. Holds of every list. -/
theorem Memory.read_write (cfg : Config) (m : Memory) (a b : Nat) (w : Byte) :
    Memory.read cfg (Memory.write cfg m a w) b = if b = a then w else Memory.read cfg m b := by
  unfold Memory.write
  split
  next h =>
    rw [Memory.read_erase]
    by_cases hb : b = a
    · simp [hb, h]
    · simp [hb]
  next h =>
    rw [Memory.read_insert cfg _ a b w (by simp [Memory.read_erase]) (Memory.not_mem_erase m a)]
    by_cases hb : b = a
    · simp [hb]
    · simp [hb, Memory.read_erase]

/-! ### The canonical form -/

theorem Memory.wf_cons (cfg : Config) (a : Nat) (w : Byte) (rest : Memory) :
    Memory.wf cfg ((a, w) :: rest) = true ↔
      a < 4096 ∧ w ≠ Memory.unlisted cfg a ∧ (∀ c ∈ rest, a < c.1) ∧ Memory.wf cfg rest = true := by
  simp [Memory.wf, List.all_eq_true, and_assoc]

theorem Memory.mem_erase_of_mem (m : Memory) (a : Nat) (c : Host.Cell) (h : c ∈ Memory.erase m a) : c ∈ m := by
  induction m with
  | nil => simp [Memory.erase] at h
  | cons d rest ih =>
    obtain ⟨k, u⟩ := d
    by_cases hk : k = a
    · exact List.mem_cons_of_mem _ (ih (by simpa [Memory.erase, hk] using h))
    · rcases (by simpa [Memory.erase, hk] using h : c = (k, u) ∨ c ∈ Memory.erase rest a) with h | h
      · simp [h]
      · exact List.mem_cons_of_mem _ (ih h)

theorem Memory.mem_insert (m : Memory) (a : Nat) (w : Byte) (c : Host.Cell) (h : c ∈ Memory.insert m a w) :
    c = (a, w) ∨ c ∈ m := by
  induction m with
  | nil => simpa [Memory.insert] using h
  | cons d rest ih =>
    obtain ⟨k, u⟩ := d
    by_cases hlt : a < k
    · simpa [Memory.insert, hlt] using h
    · rcases (by simpa [Memory.insert, hlt] using h : c = (k, u) ∨ c ∈ Memory.insert rest a w) with h | h
      · simp [h]
      · rcases ih h with h | h <;> simp [h]

theorem Memory.wf_erase (cfg : Config) (m : Memory) (a : Nat) (h : Memory.wf cfg m = true) :
    Memory.wf cfg (Memory.erase m a) = true := by
  induction m with
  | nil => exact h
  | cons d rest ih =>
    obtain ⟨k, u⟩ := d
    obtain ⟨h1, h2, h3, h4⟩ := (Memory.wf_cons cfg k u rest).1 h
    by_cases hk : k = a
    · simpa [Memory.erase, hk] using ih h4
    · rw [show Memory.erase ((k, u) :: rest) a = (k, u) :: Memory.erase rest a from by simp [Memory.erase, hk],
        Memory.wf_cons]
      exact ⟨h1, h2, fun c hc => h3 c (Memory.mem_erase_of_mem rest a c hc), ih h4⟩

theorem Memory.wf_insert (cfg : Config) (m : Memory) (a : Nat) (w : Byte) (h : Memory.wf cfg m = true)
    (ha : a < 4096) (hw : w ≠ Memory.unlisted cfg a) (hm : ∀ c ∈ m, c.1 ≠ a) :
    Memory.wf cfg (Memory.insert m a w) = true := by
  induction m with
  | nil => exact (Memory.wf_cons cfg a w []).2 ⟨ha, hw, by simp, h⟩
  | cons d rest ih =>
    obtain ⟨k, u⟩ := d
    obtain ⟨h1, h2, h3, h4⟩ := (Memory.wf_cons cfg k u rest).1 h
    have hk : k ≠ a := hm (k, u) (by simp)
    by_cases hlt : a < k
    · rw [show Memory.insert ((k, u) :: rest) a w = (a, w) :: (k, u) :: rest from by simp [Memory.insert, hlt],
        Memory.wf_cons]
      refine ⟨ha, hw, ?_, h⟩
      intro c hc
      rcases List.mem_cons.1 hc with rfl | hc
      · exact hlt
      · exact Nat.lt_trans hlt (h3 c hc)
    · rw [show Memory.insert ((k, u) :: rest) a w = (k, u) :: Memory.insert rest a w from by
          simp [Memory.insert, hlt], Memory.wf_cons]
      refine ⟨h1, h2, ?_, ih h4 fun c hc => hm c (by simp [hc])⟩
      intro c hc
      rcases Memory.mem_insert rest a w c hc with rfl | hc
      · show k < a
        omega
      · exact h3 c hc

/-- A write in range keeps the canonical form. -/
theorem Memory.wf_write (cfg : Config) (m : Memory) (a : Nat) (w : Byte) (h : Memory.wf cfg m = true)
    (ha : a < 4096) : Memory.wf cfg (Memory.write cfg m a w) = true := by
  unfold Memory.write
  split
  · exact Memory.wf_erase cfg m a h
  next hw => exact Memory.wf_insert cfg _ a w (Memory.wf_erase cfg m a h) ha hw (Memory.not_mem_erase m a)

/-- Reset memory has the canonical form. -/
theorem Memory.wf_nil (cfg : Config) : Memory.wf cfg [] = true := rfl

/-! ### The state's memory -/

theorem State.peek_poke (s : State) (a b : Nat) (w : Byte) :
    (s.poke a w).peek b = if b = a then w else s.peek b := by
  simp [State.peek, State.poke, Memory.read_write]

/-- A store of several bytes changes exactly those bytes. -/
theorem State.peek_pokeList (s : State) (base : Nat) (bs : List Byte) (a : Nat) :
    (s.pokeList base bs).peek a =
      if base ≤ a ∧ a < base + bs.length then bs.getD (a - base) 0 else s.peek a := by
  induction bs generalizing s base with
  | nil =>
    have : ¬ (base ≤ a ∧ a < base) := by omega
    simp [State.pokeList, this]
  | cons b rest ih =>
    rw [State.pokeList, ih, State.peek_poke]
    rcases Nat.lt_trichotomy base a with h | h | h
    · have e : a - base = (a - (base + 1)) + 1 := by omega
      by_cases hlt : a < base + 1 + rest.length
      · have h1 : base + 1 ≤ a ∧ a < base + 1 + rest.length := ⟨h, hlt⟩
        have h2 : base ≤ a ∧ a < base + (b :: rest).length := by simp; omega
        rw [if_pos h1, if_pos h2, e, List.getD_cons_succ]
      · have h1 : ¬ (base + 1 ≤ a ∧ a < base + 1 + rest.length) := fun h => hlt h.2
        have h2 : ¬ (base ≤ a ∧ a < base + (b :: rest).length) := by simp; omega
        rw [if_neg h1, if_neg h2, if_neg (by omega)]
    · have h1 : ¬ (base + 1 ≤ a ∧ a < base + 1 + rest.length) := by omega
      have h2 : base ≤ a ∧ a < base + (b :: rest).length := by simp; omega
      rw [if_neg h1, if_pos h2, if_pos h.symm, h]
      simp
    · have h1 : ¬ (base + 1 ≤ a ∧ a < base + 1 + rest.length) := by omega
      have h2 : ¬ (base ≤ a ∧ a < base + (b :: rest).length) := by omega
      rw [if_neg h1, if_neg h2, if_neg (by omega)]

/-- Bytes outside a store read as before. -/
theorem State.memRead_pokeList_outside (s : State) (base : Nat) (bs : List Byte) (a : Nat)
    (h : a < base ∨ base + bs.length ≤ a) : (s.pokeList base bs).memRead a = s.memRead a := by
  simp only [State.memRead, State.peek_pokeList]
  rw [if_neg (by omega : ¬ (base ≤ a ∧ a < base + bs.length))]

/-- Byte `k` of a store in range reads back. -/
theorem State.memRead_pokeList_inside (s : State) (base : Nat) (bs : List Byte) (k : Nat) (hk : k < bs.length)
    (hm : base + k < 4096) : (s.pokeList base bs).memRead (base + k) = some (bs.getD k 0) := by
  have h : base ≤ base + k ∧ base + k < base + bs.length := by omega
  simp [State.memRead, State.peek_pokeList, h, hm]

theorem State.memRead_of_lt (s : State) {a : Nat} (h : a < 4096) : s.memRead a = some (s.peek a) := by
  simp [State.memRead, h]

theorem State.memRead_of_ge (s : State) {a : Nat} (h : 4096 ≤ a) : s.memRead a = none := by
  have : ¬ a < 4096 := by omega
  simp [State.memRead, this]

/-- Two states with the same parameters and memory read the same. -/
theorem State.memRead_congr {s t : State} (hc : t.cfg = s.cfg) (hm : t.mem = s.mem) (a : Nat) :
    t.memRead a = s.memRead a := by
  simp [State.memRead, State.peek, hc, hm]

/-- A store in range keeps the canonical form. -/
theorem State.wf_pokeList (s : State) (base : Nat) (bs : List Byte) (h : Memory.wf s.cfg s.mem = true)
    (hb : base + bs.length ≤ 4096) : Memory.wf s.cfg (s.pokeList base bs).mem = true := by
  induction bs generalizing s base with
  | nil => exact h
  | cons b rest ih =>
    simp only [List.length_cons] at hb
    exact ih (s.poke base b) (base + 1) (Memory.wf_write s.cfg s.mem base b h (by omega)) (by omega)

/-! ### Spans -/

theorem spanInMemory_iff (base n : Nat) : spanInMemory base n = true ↔ n = 0 ∨ base + n ≤ 4096 := by
  simp [spanInMemory]

theorem spanInMemory_eq_false_iff (base n : Nat) :
    spanInMemory base n = false ↔ n ≠ 0 ∧ 4096 < base + n := by
  simp [spanInMemory]

/-- All a store can do: in range it writes exactly its bytes, else it faults and writes nothing. -/
theorem storeSpan_cases (base : Nat) (bs : List Byte) (s : State) :
    ((bs.length = 0 ∨ base + bs.length ≤ 4096) ∧ storeSpan base bs s = .next (s.pokeList base bs)) ∨
      ((bs.length ≠ 0 ∧ 4096 < base + bs.length) ∧ storeSpan base bs s = .fault .invalidMemoryAccess) := by
  unfold storeSpan
  by_cases h : spanInMemory base bs.length = true
  · exact .inl ⟨(spanInMemory_iff _ _).1 h, by simp [h]⟩
  · have h' : spanInMemory base bs.length = false := by simpa using h
    exact .inr ⟨(spanInMemory_eq_false_iff _ _).1 h', by simp [h', raise]⟩

/-- All a load of several bytes can give. -/
theorem State.loadSpan_cases (s : State) (base n : Nat) :
    ((n = 0 ∨ base + n ≤ 4096) ∧ s.loadSpan base n = some ((List.range n).map fun k => s.peek (base + k))) ∨
      ((n ≠ 0 ∧ 4096 < base + n) ∧ s.loadSpan base n = none) := by
  unfold State.loadSpan
  by_cases h : spanInMemory base n = true
  · exact .inl ⟨(spanInMemory_iff _ _).1 h, by simp [h]⟩
  · have h' : spanInMemory base n = false := by simpa using h
    exact .inr ⟨(spanInMemory_eq_false_iff _ _).1 h', by simp [h']⟩

end Sys2Proof.Machine
end

