-- ==== Sys2Proof/Laws/Stack.lean ====
section
/-! SUPPORT. All that a push and a pop of the call stack can do (10_state.md R26). -/

namespace Sys2Proof.Machine

/-- A push below capacity writes slot `SP`, counts it and jumps; at capacity it faults. -/
theorem pushAndJump_cases (a target : Word) (s : State) :
    (s.sp < s.cfg.stackDepth ∧
        pushAndJump a target s = .next { s with stack := s.stack.set s.sp a, sp := s.sp + 1, pc := target }) ∨
      (s.cfg.stackDepth ≤ s.sp ∧ pushAndJump a target s = .fault .stackOverflow) := by
  unfold pushAndJump
  by_cases h : s.sp < s.cfg.stackDepth
  · exact .inl ⟨h, by simp [h]⟩
  · exact .inr ⟨by omega, by simp [h, raise]⟩

/-- A pop of a nonempty stack uncounts the last entry and jumps to it; of an empty one it faults. -/
theorem popToPc_cases (s : State) :
    (s.sp ≠ 0 ∧ popToPc s = .next { s with sp := s.sp - 1, pc := s.slot (s.sp - 1) }) ∨
      (s.sp = 0 ∧ popToPc s = .fault .stackUnderflow) := by
  unfold popToPc
  by_cases h : s.sp = 0
  · exact .inr ⟨h, by simp [h, raise]⟩
  · exact .inl ⟨h, by simp [h]⟩

/-- A slot after slot `p` has been written, where there is a slot `p`. -/
theorem State.slot_set (s : State) (t : State) (p k : Nat) (a : Word) (ht : t.stack = s.stack.set p a)
    (hp : p < s.stack.length) : t.slot k = if k = p then a else s.slot k := by
  by_cases hk : k = p
  · simp [State.slot, ht, hk, hp]
  · simp [State.slot, ht, hk, List.getElem?_set_ne (Ne.symm hk)]

/-- A slot in range is a member of the list of slots. -/
theorem State.slot_mem (s : State) (k : Nat) (hk : k < s.stack.length) : s.slot k ∈ s.stack := by
  simp [State.slot, hk]

end Sys2Proof.Machine
end

