-- ==== Sys2Proof/Laws/Display.lean ====
section
/-! SUPPORT. What a draw does to every pixel and to the collision flag (44_display.md R126, R127): one pixel, one row, and
all rows of a sprite. -/

namespace Sys2Proof.Machine

@[simp] theorem pixel_blankScreen (y : Fin 32) (x : Fin 64) : pixel blankScreen y x = false := by
  simp [pixel, blankScreen]

theorem pixel_togglePixel (fb : Framebuffer) (y y' : Fin 32) (x x' : Fin 64) :
    pixel (togglePixel fb y x) y' x' = if y' = y ∧ x' = x then !pixel fb y' x' else pixel fb y' x' := by
  by_cases hy : y' = y
  · subst hy
    by_cases hx : x' = x
    · subst hx
      simp [pixel, togglePixel]
    · have : ¬ x.val = x'.val := fun e => hx (Fin.ext e.symm)
      simp [pixel, togglePixel, hx, this]
  · have : ¬ y.val = y'.val := fun e => hy (Fin.ext e.symm)
    simp [pixel, togglePixel, hy, this]

/-- Two framebuffers with the same pixels are equal. -/
theorem Framebuffer.ext_pixel {f g : Framebuffer} (h : ∀ y x, pixel f y x = pixel g y x) : f = g := by
  apply Vector.ext
  intro j hj
  apply Vector.ext
  intro k hk
  exact h ⟨j, hj⟩ ⟨k, hk⟩

/-- Does one of the first `m` columns of a sprite row `b` drawn from column `x0` flip screen column `x`? -/
def rowCovers (x0 : Nat) (b : Byte) (m : Nat) (x : Fin 64) : Bool :=
  (List.range m).any fun c => spriteBit b c && x == wrapColumn (x0 + c)

theorem rowCovers_iff (x0 : Nat) (b : Byte) (m : Nat) (x : Fin 64) :
    rowCovers x0 b m x = true ↔ ∃ c, c < m ∧ spriteBit b c = true ∧ x = wrapColumn (x0 + c) := by
  simp [rowCovers, List.any_eq_true]

theorem rowCovers_succ (x0 : Nat) (b : Byte) (m : Nat) (x : Fin 64) :
    rowCovers x0 b (m + 1) x = (rowCovers x0 b m x || (spriteBit b m && x == wrapColumn (x0 + m))) := by
  simp [rowCovers, List.range_succ]

/-- The first columns of a sprite row never meet the next one: 8 <= 64 (R127 (b)). -/
theorem rowCovers_fresh (x0 : Nat) (b : Byte) (m : Nat) (hm : m < 8) :
    rowCovers x0 b m (wrapColumn (x0 + m)) = false := by
  rw [← Bool.not_eq_true, rowCovers_iff]
  rintro ⟨c, hc, -, he⟩
  have := congrArg Fin.val he
  simp [wrapColumn] at this
  omega

/-- The part of `Draw.row` that has drawn the first `m` columns. -/
def Draw.rowPart (d : Draw) (x0 : Nat) (y : Fin 32) (b : Byte) (m : Nat) : Draw :=
  (List.range m).foldl (fun d c => if spriteBit b c then d.flip y (wrapColumn (x0 + c)) else d) d

theorem Draw.rowPart_succ (d : Draw) (x0 : Nat) (y : Fin 32) (b : Byte) (m : Nat) :
    d.rowPart x0 y b (m + 1) =
      if spriteBit b m then (d.rowPart x0 y b m).flip y (wrapColumn (x0 + m)) else d.rowPart x0 y b m := by
  simp [Draw.rowPart, List.range_succ]

theorem Draw.rowPart_spec (d : Draw) (x0 : Nat) (y : Fin 32) (b : Byte) (m : Nat) (hm : m ≤ 8) :
    (∀ y' x', pixel (d.rowPart x0 y b m).fb y' x' = (pixel d.fb y' x' ^^ (y' == y && rowCovers x0 b m x'))) ∧
      ((d.rowPart x0 y b m).collision = true ↔
        d.collision = true ∨ ∃ x', rowCovers x0 b m x' = true ∧ pixel d.fb y x' = true) := by
  induction m with
  | zero => simp [Draw.rowPart, rowCovers]
  | succ m ih =>
    obtain ⟨ihp, ihc⟩ := ih (by omega)
    rw [Draw.rowPart_succ]
    by_cases hb : spriteBit b m = true
    · have hfresh := rowCovers_fresh x0 b m (by omega)
      refine ⟨fun y' x' => ?_, ?_⟩
      · simp only [hb, if_true, Draw.flip, pixel_togglePixel, ihp, rowCovers_succ, Bool.true_and]
        by_cases hy : y' = y
        · by_cases hx : x' = wrapColumn (x0 + m)
          · subst hx
            simp [hy, hfresh]
          · simp [hy, hx]
        · simp [hy, beq_eq_false_iff_ne.mpr hy]
      · simp only [hb, if_true, Draw.flip, Bool.or_eq_true, ihc, ihp, rowCovers_succ, hfresh]
        constructor
        · rintro ((h | ⟨x', h1, h2⟩) | h)
          · exact .inl h
          · exact .inr ⟨x', .inl h1, h2⟩
          · exact .inr ⟨wrapColumn (x0 + m), .inr (by simp), by simpa using h⟩
        · rintro (h | ⟨x', h1 | h1, h2⟩)
          · exact .inl (.inl h)
          · exact .inl (.inr ⟨x', h1, h2⟩)
          · have : x' = wrapColumn (x0 + m) := by simpa using h1
            subst this
            exact .inr (by simpa using h2)
    · have hb' : spriteBit b m = false := by simpa using hb
      have hc : ∀ x', rowCovers x0 b (m + 1) x' = rowCovers x0 b m x' := fun x' => by simp [rowCovers_succ, hb']
      simp only [hb', Bool.false_eq_true, if_false, hc]
      exact ⟨ihp, ihc⟩

/-- All that one sprite row does: on its screen row it flips the covered pixels, and collides where one was on. -/
theorem Draw.row_spec (d : Draw) (x0 : Nat) (y : Fin 32) (b : Byte) :
    (∀ y' x', pixel (d.row x0 y b).fb y' x' = (pixel d.fb y' x' ^^ (y' == y && rowCovers x0 b 8 x'))) ∧
      ((d.row x0 y b).collision = true ↔
        d.collision = true ∨ ∃ x', rowCovers x0 b 8 x' = true ∧ pixel d.fb y x' = true) :=
  Draw.rowPart_spec d x0 y b 8 (Nat.le_refl 8)

/-- Do the sprite rows `bs`, the first at row offset `r`, flip the screen pixel `(x, y)`? -/
def rowsCover (x0 y0 r : Nat) (bs : List Byte) (y : Fin 32) (x : Fin 64) : Bool :=
  match bs with
  | [] => false
  | b :: rest => (y == wrapRow (y0 + r) && rowCovers x0 b 8 x) || rowsCover x0 y0 (r + 1) rest y x

theorem rowsCover_iff (x0 y0 r : Nat) (bs : List Byte) (y : Fin 32) (x : Fin 64) :
    rowsCover x0 y0 r bs y x = true ↔
      ∃ k c, k < bs.length ∧ c < 8 ∧ y = wrapRow (y0 + (r + k)) ∧ x = wrapColumn (x0 + c) ∧
        spriteBit (bs.getD k 0) c = true := by
  induction bs generalizing r with
  | nil => simp [rowsCover]
  | cons b rest ih =>
    simp only [rowsCover, Bool.or_eq_true, Bool.and_eq_true, beq_iff_eq, ih, rowCovers_iff]
    constructor
    · rintro (⟨hy, c, hc, hb, hx⟩ | ⟨k, c, hk, hc, hy, hx, hb⟩)
      · exact ⟨0, c, by simp, hc, by simpa using hy, hx, by simpa using hb⟩
      · refine ⟨k + 1, c, by simpa using hk, hc, ?_, hx, by simpa using hb⟩
        rw [hy, show r + 1 + k = r + (k + 1) by omega]
    · rintro ⟨k, c, hk, hc, hy, hx, hb⟩
      cases k with
      | zero => exact .inl ⟨by simpa using hy, c, hc, by simpa using hb, hx⟩
      | succ k =>
        refine .inr ⟨k, c, by simpa using hk, hc, ?_, hx, by simpa using hb⟩
        rw [hy, show r + 1 + k = r + (k + 1) by omega]

/-- At most 15 rows on 32: a later sprite row never meets an earlier one (R127 (b)). -/
theorem rowsCover_fresh (x0 y0 r : Nat) (bs : List Byte) (x : Fin 64) (h : bs.length < 32) :
    rowsCover x0 y0 (r + 1) bs (wrapRow (y0 + r)) x = false := by
  rw [← Bool.not_eq_true, rowsCover_iff]
  rintro ⟨k, c, hk, -, hy, -⟩
  have := congrArg Fin.val hy
  simp [wrapRow] at this
  omega

/-- All that a draw of at most 32 rows does: it flips exactly the covered pixels, and collides where one was on. -/
theorem Draw.rows_spec (d : Draw) (x0 y0 r : Nat) (bs : List Byte) (h : bs.length ≤ 32) :
    (∀ y x, pixel (d.rows x0 y0 r bs).fb y x = (pixel d.fb y x ^^ rowsCover x0 y0 r bs y x)) ∧
      ((d.rows x0 y0 r bs).collision = true ↔
        d.collision = true ∨ ∃ y x, rowsCover x0 y0 r bs y x = true ∧ pixel d.fb y x = true) := by
  induction bs generalizing d r with
  | nil => simp [Draw.rows, rowsCover]
  | cons b rest ih =>
    simp only [List.length_cons] at h
    obtain ⟨ihp, ihc⟩ := ih (d.row x0 (wrapRow (y0 + r)) b) (r + 1) (by omega)
    obtain ⟨hp, hc⟩ := Draw.row_spec d x0 (wrapRow (y0 + r)) b
    have hfresh := fun x => rowsCover_fresh x0 y0 r rest x (by omega)
    refine ⟨fun y x => ?_, ?_⟩
    · rw [Draw.rows, ihp, hp, rowsCover]
      by_cases hy : y = wrapRow (y0 + r)
      · subst hy
        simp [hfresh]
      · simp [beq_eq_false_iff_ne.mpr hy]
    · rw [Draw.rows, ihc, hc]
      simp only [rowsCover, Bool.or_eq_true, Bool.and_eq_true, beq_iff_eq, hp]
      constructor
      · rintro ((h | ⟨x, h1, h2⟩) | ⟨y, x, h1, h2⟩)
        · exact .inl h
        · exact .inr ⟨_, x, .inl ⟨rfl, h1⟩, h2⟩
        · by_cases hy : y = wrapRow (y0 + r)
          · subst hy
            simp [hfresh] at h1
          · exact .inr ⟨y, x, .inr h1, by simpa [beq_eq_false_iff_ne.mpr hy] using h2⟩
      · rintro (h | ⟨y, x, ⟨hy, h1⟩ | h1, h2⟩)
        · exact .inl (.inl h)
        · subst hy
          exact .inl (.inr ⟨x, h1, h2⟩)
        · by_cases hy : y = wrapRow (y0 + r)
          · subst hy
            simp [hfresh] at h1
          · exact .inr ⟨y, x, h1, by simpa [beq_eq_false_iff_ne.mpr hy] using h2⟩

end Sys2Proof.Machine
end

