-- ==== Sys2Proof/Laws/PerInstr.lean ====
section
/-! SUPPORT. The family EncodeKey, about instructions as syntax: the canonical word of an instruction has the dispatch key
of its row in the opcode map (30_encoding.md R66), and a no-operation's word is unmapped (R67). -/

namespace Sys2Proof.Laws.EncodeKey

/-- The row of `i`'s mnemonic stands in the table and its key is that of `i`'s word, or `i` is a no-operation of an unmapped
word. -/
def Statement (i : Instr) : Prop :=
  i.wellFormed = true →
    (∃ r ∈ opcodeTable, r.mnemonic = i.mnemonic ∧ r.selects (encode i) = true) ∨
      (i.mnemonic = "NOP" ∧ unmapped (encode i) = true)

theorem of_F000 {i : Instr} (m : String) (op : Nat) (h : op < 16) (ho : opOf (encode i) = op)
    (hr : (⟨m, 0xF000, BitVec.ofNat 16 (op * 4096)⟩ : OpcodeRow) ∈ opcodeTable) (hm : m = i.mnemonic) :
    Statement i :=
  fun _ => .inl ⟨_, hr, hm, beq_iff_eq.2 ((and_F000_eq_iff _ op h).2 ho)⟩

theorem of_F00F {i : Instr} (m : String) (op n : Nat) (h : op < 16) (hn : n < 16) (ho : opOf (encode i) = op)
    (hk : (nOf (encode i)).val = n)
    (hr : (⟨m, 0xF00F, BitVec.ofNat 16 (op * 4096 + n)⟩ : OpcodeRow) ∈ opcodeTable) (hm : m = i.mnemonic) :
    Statement i :=
  fun _ => .inl ⟨_, hr, hm, beq_iff_eq.2 ((and_F00F_eq_iff _ op n h hn).2 ⟨ho, hk⟩)⟩

theorem of_F0FF {i : Instr} (m : String) (op k : Nat) (h : op < 16) (hk : k < 256) (ho : opOf (encode i) = op)
    (hb : (kkOf (encode i)).toNat = k)
    (hr : (⟨m, 0xF0FF, BitVec.ofNat 16 (op * 4096 + k)⟩ : OpcodeRow) ∈ opcodeTable) (hm : m = i.mnemonic) :
    Statement i :=
  fun _ => .inl ⟨_, hr, hm, beq_iff_eq.2 ((and_F0FF_eq_iff _ op k h hk).2 ⟨ho, hb⟩)⟩

theorem cls : Statement .cls :=
  of_F00F "CLS" 0x0 0x0 (by decide) (by decide) rfl rfl (by decide) rfl

theorem ret : Statement .ret :=
  of_F00F "RET" 0x0 0xE (by decide) (by decide) rfl rfl (by decide) rfl

theorem jp (nnn : Addr12) : Statement (.jp nnn) :=
  of_F000 "JP_nnn" 1 (by decide) (opOf_formatNNN 1 (by decide) nnn) (by decide) rfl

theorem call (nnn : Addr12) : Statement (.call nnn) :=
  of_F000 "CALL_nnn" 2 (by decide) (opOf_formatNNN 2 (by decide) nnn) (by decide) rfl

theorem ldI (nnn : Addr12) : Statement (.ldI nnn) :=
  of_F000 "LD_I__nnn" 10 (by decide) (opOf_formatNNN 10 (by decide) nnn) (by decide) rfl

theorem jpV0 (nnn : Addr12) : Statement (.jpV0 nnn) :=
  of_F000 "JP_V0__nnn" 11 (by decide) (opOf_formatNNN 11 (by decide) nnn) (by decide) rfl

theorem seImm (x : Reg) (kk : Byte) : Statement (.seImm x kk) :=
  of_F000 "SE_Vx__kk" 3 (by decide) (opOf_formatXKK 3 (by decide) x kk) (by decide) rfl

theorem sneImm (x : Reg) (kk : Byte) : Statement (.sneImm x kk) :=
  of_F000 "SNE_Vx__kk" 4 (by decide) (opOf_formatXKK 4 (by decide) x kk) (by decide) rfl

theorem ldImm (x : Reg) (kk : Byte) : Statement (.ldImm x kk) :=
  of_F000 "LD_Vx__kk" 6 (by decide) (opOf_formatXKK 6 (by decide) x kk) (by decide) rfl

theorem addImm (x : Reg) (kk : Byte) : Statement (.addImm x kk) :=
  of_F000 "ADD_Vx__kk" 7 (by decide) (opOf_formatXKK 7 (by decide) x kk) (by decide) rfl

theorem rnd (x : Reg) (kk : Byte) : Statement (.rnd x kk) :=
  of_F000 "RND_Vx__kk" 12 (by decide) (opOf_formatXKK 12 (by decide) x kk) (by decide) rfl

theorem seReg (x y : Reg) : Statement (.seReg x y) :=
  of_F000 "SE_Vx__Vy" 5 (by decide) (opOf_formatXYN 5 (by decide) x y 0 (by decide)) (by decide) rfl

theorem sneReg (x y : Reg) : Statement (.sneReg x y) :=
  of_F000 "SNE_Vx__Vy" 9 (by decide) (opOf_formatXYN 9 (by decide) x y 0 (by decide)) (by decide) rfl

theorem drw (x y : Reg) (n : Fin 16) : Statement (.drw x y n) :=
  of_F000 "DRW_Vx__Vy__n" 13 (by decide) (opOf_formatXYN 13 (by decide) x y n.val n.isLt) (by decide) rfl

theorem ldReg (x y : Reg) : Statement (.ldReg x y) :=
  of_F00F "LD_Vx__Vy" 8 0 (by decide) (by decide) (opOf_formatXYN 8 (by decide) x y 0 (by decide)) (nOf_formatXYN 8 (by decide) x y 0 (by decide)) (by decide) rfl

theorem orReg (x y : Reg) : Statement (.orReg x y) :=
  of_F00F "OR_Vx__Vy" 8 1 (by decide) (by decide) (opOf_formatXYN 8 (by decide) x y 1 (by decide)) (nOf_formatXYN 8 (by decide) x y 1 (by decide)) (by decide) rfl

theorem andReg (x y : Reg) : Statement (.andReg x y) :=
  of_F00F "AND_Vx__Vy" 8 2 (by decide) (by decide) (opOf_formatXYN 8 (by decide) x y 2 (by decide)) (nOf_formatXYN 8 (by decide) x y 2 (by decide)) (by decide) rfl

theorem xorReg (x y : Reg) : Statement (.xorReg x y) :=
  of_F00F "XOR_Vx__Vy" 8 3 (by decide) (by decide) (opOf_formatXYN 8 (by decide) x y 3 (by decide)) (nOf_formatXYN 8 (by decide) x y 3 (by decide)) (by decide) rfl

theorem addReg (x y : Reg) : Statement (.addReg x y) :=
  of_F00F "ADD_Vx__Vy" 8 4 (by decide) (by decide) (opOf_formatXYN 8 (by decide) x y 4 (by decide)) (nOf_formatXYN 8 (by decide) x y 4 (by decide)) (by decide) rfl

theorem subReg (x y : Reg) : Statement (.subReg x y) :=
  of_F00F "SUB_Vx__Vy" 8 5 (by decide) (by decide) (opOf_formatXYN 8 (by decide) x y 5 (by decide)) (nOf_formatXYN 8 (by decide) x y 5 (by decide)) (by decide) rfl

theorem shr (x y : Reg) : Statement (.shr x y) :=
  of_F00F "SHR_Vx" 8 6 (by decide) (by decide) (opOf_formatXYN 8 (by decide) x y 6 (by decide)) (nOf_formatXYN 8 (by decide) x y 6 (by decide)) (by decide) rfl

theorem subnReg (x y : Reg) : Statement (.subnReg x y) :=
  of_F00F "SUBN_Vx__Vy" 8 7 (by decide) (by decide) (opOf_formatXYN 8 (by decide) x y 7 (by decide)) (nOf_formatXYN 8 (by decide) x y 7 (by decide)) (by decide) rfl

theorem shl (x y : Reg) : Statement (.shl x y) :=
  of_F00F "SHL_Vx" 8 14 (by decide) (by decide) (opOf_formatXYN 8 (by decide) x y 14 (by decide)) (nOf_formatXYN 8 (by decide) x y 14 (by decide)) (by decide) rfl

theorem skp (x : Reg) : Statement (.skp x) :=
  of_F00F "SKP_Vx" 14 14 (by decide) (by decide) (opOf_formatXSS 14 (by decide) x 0x9E) (nOf_formatXSS 14 (by decide) x 0x9E (by decide)) (by decide) rfl

theorem sknp (x : Reg) : Statement (.sknp x) :=
  of_F00F "SKNP_Vx" 14 1 (by decide) (by decide) (opOf_formatXSS 14 (by decide) x 0xA1) (nOf_formatXSS 14 (by decide) x 0xA1 (by decide)) (by decide) rfl

theorem ldVxDT (x : Reg) : Statement (.ldVxDT x) :=
  of_F0FF "LD_Vx__DT" 15 0x07 (by decide) (by decide) (opOf_formatXSS 15 (by decide) x 0x07) (kkOf_formatXSS 15 (by decide) x 0x07 (by decide)) (by decide) rfl

theorem ldDT (x : Reg) : Statement (.ldDT x) :=
  of_F0FF "LD_DT__Vx" 15 0x15 (by decide) (by decide) (opOf_formatXSS 15 (by decide) x 0x15) (kkOf_formatXSS 15 (by decide) x 0x15 (by decide)) (by decide) rfl

theorem ldST (x : Reg) : Statement (.ldST x) :=
  of_F0FF "LD_ST__Vx" 15 0x18 (by decide) (by decide) (opOf_formatXSS 15 (by decide) x 0x18) (kkOf_formatXSS 15 (by decide) x 0x18 (by decide)) (by decide) rfl

theorem ldVxKey (x : Reg) : Statement (.ldVxKey x) :=
  of_F0FF "LD_Vx__K" 15 0x0A (by decide) (by decide) (opOf_formatXSS 15 (by decide) x 0x0A) (kkOf_formatXSS 15 (by decide) x 0x0A (by decide)) (by decide) rfl

theorem addI (x : Reg) : Statement (.addI x) :=
  of_F0FF "ADD_I__Vx" 15 0x1E (by decide) (by decide) (opOf_formatXSS 15 (by decide) x 0x1E) (kkOf_formatXSS 15 (by decide) x 0x1E (by decide)) (by decide) rfl

theorem ldF (x : Reg) : Statement (.ldF x) :=
  of_F0FF "LD_F__Vx" 15 0x29 (by decide) (by decide) (opOf_formatXSS 15 (by decide) x 0x29) (kkOf_formatXSS 15 (by decide) x 0x29 (by decide)) (by decide) rfl

theorem ldB (x : Reg) : Statement (.ldB x) :=
  of_F0FF "LD_B__Vx" 15 0x33 (by decide) (by decide) (opOf_formatXSS 15 (by decide) x 0x33) (kkOf_formatXSS 15 (by decide) x 0x33 (by decide)) (by decide) rfl

theorem storeRegs (x : Reg) : Statement (.storeRegs x) :=
  of_F0FF "LD__I___Vx" 15 0x55 (by decide) (by decide) (opOf_formatXSS 15 (by decide) x 0x55) (kkOf_formatXSS 15 (by decide) x 0x55 (by decide)) (by decide) rfl

theorem loadRegs (x : Reg) : Statement (.loadRegs x) :=
  of_F0FF "LD_Vx___I" 15 0x65 (by decide) (by decide) (opOf_formatXSS 15 (by decide) x 0x65) (kkOf_formatXSS 15 (by decide) x 0x65 (by decide)) (by decide) rfl

theorem nop (word : Word) : Statement (.nop word) := fun h => .inr ⟨rfl, h⟩

end Sys2Proof.Laws.EncodeKey
end

