-- ==== Sys2Proof/Laws/Step.lean ====
section
/-! SUPPORT. The cycle taken apart (40_cycle.md R80): what a fetch gives, and what a next state and a fault of `step` and of
the host's operations come from. -/

namespace Sys2Proof.Machine

/-- The fetch gives a word exactly when `PC <= 4094` (20_memory.md R47). -/
theorem State.fetch_cases (s : State) :
    (s.pc.toNat + 1 < 4096 ∧
        s.fetch = some (wordOfBytes (s.peek s.pc.toNat) (s.peek (s.pc.toNat + 1)))) ∨
      (4096 ≤ s.pc.toNat + 1 ∧ s.fetch = none) := by
  by_cases h : s.pc.toNat + 1 < 4096
  · refine .inl ⟨h, ?_⟩
    rw [State.fetch, s.memRead_of_lt (Nat.lt_of_succ_lt h), s.memRead_of_lt h]
  · refine .inr ⟨by omega, ?_⟩
    rw [State.fetch, s.memRead_of_ge (by omega : 4096 ≤ s.pc.toNat + 1)]
    cases s.memRead s.pc.toNat <;> rfl

theorem State.fetch_congr {s t : State} (hc : t.cfg = s.cfg) (hm : t.mem = s.mem) (hp : t.pc = s.pc) :
    t.fetch = s.fetch := by
  simp only [State.fetch, State.memRead_congr hc hm, hp]

@[simp] theorem completeCycle_next (t : State) : completeCycle (.next t) = .next t.tick := rfl
@[simp] theorem completeCycle_fault (f : Fault) : completeCycle (.fault f) = .fault f := rfl
@[simp] theorem completeCycle_refused (r : Refusal) : completeCycle (.refused r) = .refused r := rfl

theorem step_of_fetch {s : State} {w : Word} (h : s.fetch = some w) :
    step s = completeCycle (exec (decodeWord w) s.advance) := by
  simp [step, h]

/-- A next state of `step` comes from a fetched word whose instruction gave a next state. -/
theorem step_next_iff (s t : State) :
    step s = .next t ↔ ∃ w u, s.fetch = some w ∧ exec (decodeWord w) s.advance = .next u ∧ t = u.tick := by
  rcases hf : s.fetch with _ | w
  · simp [step, hf, raise]
  · rw [step_of_fetch hf]
    rcases he : exec (decodeWord w) s.advance with u | f | r
    · simp [he, eq_comm]
    · simp [he]
    · simp [he]

/-- A fault of `step` is a failed fetch or the fault of the fetched instruction. -/
theorem step_fault_iff (s : State) (f : Fault) :
    step s = .fault f ↔ (s.fetch = none ∧ f = .invalidMemoryAccess) ∨
      ∃ w, s.fetch = some w ∧ exec (decodeWord w) s.advance = .fault f := by
  rcases hf : s.fetch with _ | w
  · simp [step, hf, raise, eq_comm]
  · rw [step_of_fetch hf]
    rcases he : exec (decodeWord w) s.advance with u | g | r <;> simp [he]

/-- A refusal of `step` is the refusal of the fetched instruction. -/
theorem step_refused_iff (s : State) (r : Refusal) :
    step s = .refused r ↔ ∃ w, s.fetch = some w ∧ exec (decodeWord w) s.advance = .refused r := by
  rcases hf : s.fetch with _ | w
  · simp [step, hf, raise]
  · rw [step_of_fetch hf]
    rcases he : exec (decodeWord w) s.advance with u | g | q <;> simp [he]

/-- A tick takes 1 from a nonzero timer and nothing from zero (R84). -/
theorem tickTimer_toNat (t : Byte) : (tickTimer t).toNat = t.toNat - 1 := by
  unfold tickTimer
  by_cases h : t = 0
  · simp [h]
  · have h0 : t.toNat ≠ 0 := fun e => h (BitVec.eq_of_toNat_eq e)
    have := t.isLt
    rw [if_neg h, BitVec.toNat_sub]
    simp
    omega

/-- All that a load can do (70_reset_and_hazards.md R171). -/
theorem load_cases (bytes : List Byte) (s : State) :
    (bytes.length ≤ 3584 ∧ load bytes s = .next (s.pokeList progBase bytes)) ∨
      (3584 < bytes.length ∧ load bytes s = .fault .programTooLarge) := by
  unfold load
  by_cases h : progBase + bytes.length ≤ 4096
  · exact .inl ⟨by simp only [progBase] at *; omega, by rw [if_pos h]⟩
  · exact .inr ⟨by simp only [progBase] at *; omega, by rw [if_neg h]; rfl⟩

@[simp] theorem stateAfter_next (s t : State) : stateAfter s (.next t) = t := rfl
@[simp] theorem stateAfter_fault (s : State) (f : Fault) : stateAfter s (.fault f) = s := rfl
@[simp] theorem stateAfter_refused (s : State) (r : Refusal) : stateAfter s (.refused r) = s := rfl

/-- The packaged induction over a run: what `construct()` gives and every action keeps holds after every run. -/
theorem runActions_induction (P : State → Prop) (as : List HostAction) (s : State) (h0 : P s)
    (hstep : ∀ a s, P s → P (stateAfter s (act a s))) : P (runActions as s) := by
  induction as generalizing s with
  | nil => exact h0
  | cons a rest ih => exact ih _ (hstep a s h0)

end Sys2Proof.Machine
end

