-- ==== Sys2Proof/Tests/Slice0.lean ====
section
/-! SUPPORT. Own tests. Expected values come from the spec: its encodings (30_encoding.md R66, R67, R68), its worked vectors
(95_test_vectors.md, cited as T<table> row <n>) and its rules, never from the model. The last part shows, for every
statement that has hypotheses, states and operands that meet them. -/

namespace Sys2Proof.Tests

open Sys2Proof Sys2Proof.Machine

/-! ### Helpers -/

/-- The reset state with some general registers and `I` set. -/
def withRegs (vs : List (Reg × Byte)) (i : Word) : State :=
  { vs.foldl (fun s p => s.setV p.1 p.2) State.reset with i := i }

/-- One cycle on an instruction word placed where it is fetched next. -/
def runWord (w : Nat) (s : State) : Host.Outcome State Fault Refusal := step (s.withFetchWord 16 w)

/-- A next state that satisfies `p`. -/
def nextAnd (o : Host.Outcome State Fault Refusal) (p : State → Bool) : Bool :=
  match o with
  | .next t => p t
  | .fault _ => false
  | .refused _ => false

/-- The fault `f`. -/
def isFault (o : Host.Outcome State Fault Refusal) (f : Fault) : Bool :=
  match o with
  | .next _ => false
  | .fault g => g == f
  | .refused _ => false

/-- The pixels (row, column) of the first list are on, those of the second off. -/
def pixelsAre (t : State) (on off : List (Fin 32 × Fin 64)) : Bool :=
  on.all (fun p => pixel t.fb p.1 p.2) && off.all fun p => !pixel t.fb p.1 p.2

/-- A framebuffer with the given pixels (row, column) on. -/
def screen (on : List (Fin 32 × Fin 64)) : Framebuffer := on.foldl (fun fb p => togglePixel fb p.1 p.2) blankScreen

/-! ### WellFormed: ill-formed no-operations are refused, well-formed instructions are not -/

/-- The one check: a no-operation of a mapped word (R66) or of an alias word (R68) is no instruction. -/
theorem test_wellFormed_refuses_mapped_nop :
    ([0x00E0, 0x00EE, 0x0000, 0x1234, 0x5001, 0x8014, 0x900F, 0xE09E, 0xE00E, 0xE0A1, 0xF007, 0xF165] : List Word).all
      (fun w => !(Instr.nop w).wellFormed) = true := by decide

/-- The unmapped words of T1 rows 1 and 2. -/
theorem test_wellFormed_accepts_unmapped_nop :
    ([0x8018, 0x8008, 0x800F, 0xE09F, 0xE000, 0xF000, 0xF166, 0xF075, 0xF01F, 0x0001, 0x00EF] : List Word).all
      (fun w => (Instr.nop w).wellFormed) = true := by decide

/-! ### Decode: a word for every constructor, written out from its pattern in R66 -/

theorem test_decode_flow :
    decodeWord 0x00EE = .ret ∧ decodeWord 0x1ABC = .jp 0xABC ∧ decodeWord 0x2FED = .call 0xFED ∧
      decodeWord 0x332A = .seImm 3 0x2A ∧ decodeWord 0x4F01 = .sneImm 15 0x01 ∧ decodeWord 0x5120 = .seReg 1 2 ∧
      decodeWord 0x9AB0 = .sneReg 10 11 ∧ decodeWord 0xB300 = .jpV0 0x300 := by decide

theorem test_decode_alu :
    decodeWord 0x600A = .ldImm 0 0x0A ∧ decodeWord 0x72FF = .addImm 2 0xFF ∧ decodeWord 0x8120 = .ldReg 1 2 ∧
      decodeWord 0x8121 = .orReg 1 2 ∧ decodeWord 0x8122 = .andReg 1 2 ∧ decodeWord 0x8123 = .xorReg 1 2 ∧
      decodeWord 0x8124 = .addReg 1 2 ∧ decodeWord 0x8125 = .subReg 1 2 ∧ decodeWord 0x8126 = .shr 1 2 ∧
      decodeWord 0x8127 = .subnReg 1 2 ∧ decodeWord 0x812E = .shl 1 2 ∧ decodeWord 0xC30F = .rnd 3 0x0F := by decide

theorem test_decode_index :
    decodeWord 0xA300 = .ldI 0x300 ∧ decodeWord 0xF21E = .addI 2 ∧ decodeWord 0xF329 = .ldF 3 ∧
      decodeWord 0xF433 = .ldB 4 ∧ decodeWord 0xF555 = .storeRegs 5 ∧ decodeWord 0xF665 = .loadRegs 6 := by decide

theorem test_decode_display_and_devices :
    decodeWord 0x00E0 = .cls ∧ decodeWord 0xDF13 = .drw 15 1 3 ∧ decodeWord 0xE49E = .skp 4 ∧
      decodeWord 0xE4A1 = .sknp 4 ∧ decodeWord 0xF70A = .ldVxKey 7 ∧ decodeWord 0xF807 = .ldVxDT 8 ∧
      decodeWord 0xF915 = .ldDT 9 ∧ decodeWord 0xFA18 = .ldST 10 := by decide

/-- R67's table: a word of each unmapped family; T1 rows 1 and 2. -/
theorem test_decode_nop :
    decodeWord 0x8018 = .nop 0x8018 ∧ decodeWord 0x0001 = .nop 0x0001 ∧ decodeWord 0xE09F = .nop 0xE09F ∧
      decodeWord 0xF166 = .nop 0xF166 := by decide

/-- R68's aliases; T1 rows 3 to 8. -/
theorem test_decode_aliases :
    decodeWord 0x0000 = .cls ∧ decodeWord 0x0E00 = .cls ∧ decodeWord 0x00FE = .ret ∧ decodeWord 0x5127 = .seReg 1 2 ∧
      decodeWord 0x912F = .sneReg 1 2 ∧ decodeWord 0xE40E = .skp 4 ∧ decodeWord 0xE4F1 = .sknp 4 := by decide

/-- R44, R60: two bytes, the high byte first; one byte is rejected by name. -/
theorem test_decodeBytes :
    decodeBytes [0x60, 0x0A, 0x61] = .ok (.ldImm 0 0x0A, [0x61]) ∧ decodeBytes [0x60] = .error .truncated ∧
      decodeBytes [] = .error .truncated := by decide

theorem test_encodeBytes : encodeBytes (.drw 15 1 3) = [0xDF, 0x13] ∧ encodeBytes (.loadRegs 2) = [0xF2, 0x65] := by decide

theorem test_decodeTableWord :
    decodeTableWord 16 0xD125 = some (.drw 1 2 5) ∧ decodeTableWord 16 0x00E0 = some .cls := by decide

/-! ### Reset and load (R33; T14) -/

/-- The kernel can decide the invariant's memory part, and the rest of R33 holds of the reset state. -/
theorem test_reset :
    Memory.wf State.reset.cfg State.reset.mem = true ∧ State.reset.pc = 0x200 ∧ State.reset.sp = 0 ∧
      State.reset.stack = List.replicate 16 0 ∧ State.reset.memRead 0x050 = some 0xF0 ∧
      State.reset.memRead 0x09F = some 0x80 ∧ State.reset.memRead 0x04F = some 0 ∧ State.reset.memRead 0x0A0 = some 0 ∧
      State.reset.memRead 0xFFF = some 0 ∧ State.reset.memRead 0x1000 = none := by decide

/-- T14 row 5, an odd length; and writing the reset value of a byte lists nothing. -/
theorem test_load :
    nextAnd (load [0x12] State.reset) (fun t => t.memRead 0x200 == some 0x12 && t.memRead 0x201 == some 0) = true ∧
      nextAnd (load [0x00, 0x00] State.reset) (fun t => t == State.reset) = true := by decide

/-- T14 row 4. -/
theorem test_load_too_large : load (List.replicate 3585 0xAA) State.reset = .fault .programTooLarge := by
  rcases load_cases (List.replicate 3585 0xAA) State.reset with ⟨h, -⟩ | ⟨-, e⟩
  · rw [List.length_replicate] at h; omega
  · exact e

/-- T14 row 6: with nothing loaded the first cycle runs a `CLS` alias. -/
theorem test_first_cycle : nextAnd (step State.reset) (fun t => t == { State.reset with pc := 0x202 }) = true := by decide

/-- The word is fetched where `withFetchWord` puts it: at `PC`, and at 0x200 from a `PC` no fetch can read. -/
theorem test_withFetchWord :
    (State.reset.withFetchWord 16 0x1ABC).fetch = some 0x1ABC ∧
      ({ State.reset with pc := 0xFFE }.withFetchWord 16 0x1ABC).fetch = some 0x1ABC ∧
      ({ State.reset with pc := 0xFFFF }.withFetchWord 16 0x1ABC).pc = 0x200 := by decide

/-! ### The cycle (T1) -/

/-- T1 row 1. -/
theorem test_nop :
    nextAnd (runWord 0x8018 { State.reset with dt := 2 }) (fun t => t.pc == 0x202 && t.dt == 1 && t.st == 0) = true := by
  decide

/-- T1 rows 9 and 10: no fetch at 4095 and at 4096. -/
theorem test_fetch_out_of_range :
    isFault (step { State.reset with pc := 4095 }) .invalidMemoryAccess = true ∧
      isFault (step { State.reset with pc := 4096 }) .invalidMemoryAccess = true := by decide

/-- T1 row 11: the last fetchable address. -/
theorem test_fetch_at_4094 :
    nextAnd (runWord 0x6055 { State.reset with pc := 4094 }) (fun t => t.getV 0 == 0x55 && t.pc == 4096) = true := by decide

/-! ### Control transfer (T2) -/

/-- T2 row 1. -/
theorem test_jp : nextAnd (runWord 0x1ABC State.reset) (fun t => t.pc == 0xABC) = true := by decide

/-- T2 row 7: the return address 4096 is legal to hold. -/
theorem test_call :
    nextAnd (runWord 0x2FFE { State.reset with pc := 0xFFE })
      (fun t => t.slot 0 == 0x1000 && t.sp == 1 && t.pc == 0xFFE) = true := by decide

/-- T2 row 4. -/
theorem test_call_overflow :
    isFault (runWord 0x2300 { State.reset with sp := 16, stack := List.replicate 16 0x222, dt := 5 }) .stackOverflow = true := by
  decide

/-- T2 row 5. -/
theorem test_ret :
    nextAnd (runWord 0x00EE { State.reset with pc := 0x212, sp := 1, stack := 0x206 :: List.replicate 15 0 })
      (fun t => t.sp == 0 && t.pc == 0x206) = true := by decide

/-- T2 row 6, and T1 row 5 by the alias 0x00FE. -/
theorem test_ret_underflow :
    isFault (runWord 0x00EE State.reset) .stackUnderflow = true ∧
      isFault (runWord 0x00FE State.reset) .stackUnderflow = true := by decide

/-- T2 row 9: the sum is not reduced modulo 4096. -/
theorem test_jpV0 : nextAnd (runWord 0xBFFF (withRegs [(0, 0xFF)] 0)) (fun t => t.pc == 0x10FE) = true := by decide

/-- T2 rows 10 and 11. -/
theorem test_seImm :
    nextAnd (runWord 0x332A (withRegs [(3, 0x2A)] 0)) (fun t => t.pc == 0x204) = true ∧
      nextAnd (runWord 0x332A (withRegs [(3, 0x2B)] 0)) (fun t => t.pc == 0x202) = true := by decide

/-- T2 rows 12 and 13. -/
theorem test_sneImm :
    nextAnd (runWord 0x432A (withRegs [(3, 0x2A)] 0)) (fun t => t.pc == 0x202) = true ∧
      nextAnd (runWord 0x432A State.reset) (fun t => t.pc == 0x204) = true := by decide

/-- T2 rows 14 and 15. -/
theorem test_seReg :
    nextAnd (runWord 0x5120 (withRegs [(1, 7), (2, 7)] 0)) (fun t => t.pc == 0x204) = true ∧
      nextAnd (runWord 0x5120 (withRegs [(1, 7), (2, 8)] 0)) (fun t => t.pc == 0x202) = true := by decide

/-- T2 rows 17 and 18. -/
theorem test_sneReg :
    nextAnd (runWord 0x9120 (withRegs [(1, 7), (2, 8)] 0)) (fun t => t.pc == 0x204) = true ∧
      nextAnd (runWord 0x9120 (withRegs [(1, 7), (2, 7)] 0)) (fun t => t.pc == 0x202) = true := by decide

/-! ### Registers and arithmetic (T3 to T8) -/

/-- T8 row 2. -/
theorem test_ldImm : nextAnd (runWord 0x6FAB State.reset) (fun t => t.getV 15 == 0xAB) = true := by decide

/-- T8 row 3: a wrap sets no flag. -/
theorem test_addImm :
    nextAnd (runWord 0x7201 (withRegs [(2, 0xFF)] 0)) (fun t => t.getV 2 == 0 && t.getV 15 == 0) = true := by decide

/-- T8 row 6. -/
theorem test_ldReg :
    nextAnd (runWord 0x8010 (withRegs [(0, 0x01), (1, 0x9C), (15, 1)] 0)) (fun t => t.getV 0 == 0x9C && t.getV 15 == 1) = true := by
  decide

/-- T8 row 7. -/
theorem test_orReg :
    nextAnd (runWord 0x8011 (withRegs [(0, 0xF0), (1, 0x0F), (15, 1)] 0)) (fun t => t.getV 0 == 0xFF && t.getV 15 == 1) = true := by
  decide

/-- T8 row 8. -/
theorem test_andReg :
    nextAnd (runWord 0x8012 (withRegs [(0, 0xF0), (1, 0x3C), (15, 1)] 0)) (fun t => t.getV 0 == 0x30 && t.getV 15 == 1) = true := by
  decide

/-- T8 row 9. -/
theorem test_xorReg :
    nextAnd (runWord 0x8013 (withRegs [(0, 0xF0), (1, 0x3C), (15, 1)] 0)) (fun t => t.getV 0 == 0xCC && t.getV 15 == 1) = true := by
  decide

/-- T3 rows 2 and 3: the sums 255 and 256. -/
theorem test_addReg :
    nextAnd (runWord 0x8014 (withRegs [(0, 0xF0), (1, 0x0F)] 0)) (fun t => t.getV 0 == 0xFF && t.getV 15 == 0) = true ∧
      nextAnd (runWord 0x8014 (withRegs [(0, 0x80), (1, 0x80)] 0)) (fun t => t.getV 0 == 0 && t.getV 15 == 1) = true := by
  decide

/-- T3 rows 7 and 9: the flag lands last, and the old `VF` is the operand. -/
theorem test_addReg_flag_register :
    nextAnd (runWord 0x8F14 (withRegs [(15, 0xFF), (1, 0x02)] 0)) (fun t => t.getV 15 == 1) = true ∧
      nextAnd (runWord 0x80F4 (withRegs [(0, 0x10), (15, 0x05)] 0)) (fun t => t.getV 0 == 0x15 && t.getV 15 == 0) = true := by
  decide

/-- T4 rows 2 and 3: a borrow, and equal operands. -/
theorem test_subReg :
    nextAnd (runWord 0x8015 (withRegs [(0, 5), (1, 10)] 0)) (fun t => t.getV 0 == 0xFB && t.getV 15 == 0) = true ∧
      nextAnd (runWord 0x8015 (withRegs [(0, 7), (1, 7)] 0)) (fun t => t.getV 0 == 0 && t.getV 15 == 0) = true := by decide

/-- T5 rows 1 and 2. -/
theorem test_subnReg :
    nextAnd (runWord 0x8017 (withRegs [(0, 5), (1, 10)] 0)) (fun t => t.getV 0 == 5 && t.getV 15 == 1) = true ∧
      nextAnd (runWord 0x8017 (withRegs [(0, 10), (1, 5)] 0)) (fun t => t.getV 0 == 0xFB && t.getV 15 == 0) = true := by
  decide

/-- T6 rows 1 and 6: `y` is ignored, and the fill is zero. -/
theorem test_shr :
    nextAnd (runWord 0x8016 (withRegs [(0, 0x05), (1, 0xAA)] 0)) (fun t => t.getV 0 == 0x02 && t.getV 15 == 1) = true ∧
      nextAnd (runWord 0x8016 (withRegs [(0, 0x80), (1, 0xAA)] 0)) (fun t => t.getV 0 == 0x40 && t.getV 15 == 0) = true := by
  decide

/-- T7 rows 1 and 2. -/
theorem test_shl :
    nextAnd (runWord 0x801E (withRegs [(0, 0x81), (1, 0xAA)] 0)) (fun t => t.getV 0 == 0x02 && t.getV 15 == 1) = true ∧
      nextAnd (runWord 0x801E (withRegs [(0, 0x40), (1, 0xAA)] 0)) (fun t => t.getV 0 == 0x80 && t.getV 15 == 0) = true := by
  decide

/-- T8 row 12: a zero mask gives zero, whatever the draw; the draw is consumed (R112). -/
theorem test_rnd : ∃ t, exec (.rnd 3 0x00) State.reset = .next t ∧ t.getV 3 = 0 ∧ t.draws = 1 :=
  ⟨_, rfl, State.getV_setV_self State.reset 3 _ |>.trans BitVec.and_zero, rfl⟩

/-! ### Index register and memory (T9 to T11) -/

/-- T9 row 1. -/
theorem test_ldI : nextAnd (runWord 0xA300 State.reset) (fun t => t.i == 0x300) = true := by decide

/-- T9 rows 3 and 4: past 0x0FFF with no flag, and the 16-bit wrap. -/
theorem test_addI :
    nextAnd (runWord 0xF21E (withRegs [(2, 1)] 0x0FFF)) (fun t => t.i == 0x1000 && t.getV 15 == 0) = true ∧
      nextAnd (runWord 0xF21E (withRegs [(2, 1)] 0xFFFF)) (fun t => t.i == 0) = true := by decide

/-- T9 rows 8 and 9: the last digit, and the whole register. -/
theorem test_ldF :
    nextAnd (runWord 0xF029 (withRegs [(0, 0x0F)] 0)) (fun t => t.i == 0x009B) = true ∧
      nextAnd (runWord 0xF029 (withRegs [(0, 0x10)] 0)) (fun t => t.i == 0x00A0) = true := by decide

/-- T10 rows 7 and 9. -/
theorem test_ldB :
    nextAnd (runWord 0xF033 (withRegs [(0, 234)] 0x300))
        (fun t => t.memRead 0x300 == some 2 && t.memRead 0x301 == some 3 && t.memRead 0x302 == some 4) = true ∧
      nextAnd (runWord 0xF033 (withRegs [(0, 255)] 4093))
        (fun t => t.memRead 4093 == some 2 && t.memRead 4094 == some 5 && t.memRead 4095 == some 5) = true := by decide

/-- T10 row 10. -/
theorem test_ldB_out_of_range : isFault (runWord 0xF033 (withRegs [(0, 255)] 4094)) .invalidMemoryAccess = true := by decide

/-- T11 row 1. -/
theorem test_storeRegs :
    nextAnd (runWord 0xF255 (withRegs [(0, 0x11), (1, 0x22), (2, 0x33), (3, 0x44)] 0x400))
      (fun t => t.memRead 0x400 == some 0x11 && t.memRead 0x401 == some 0x22 && t.memRead 0x402 == some 0x33 &&
        t.memRead 0x403 == some 0 && t.i == 0x400) = true := by decide

/-- T11 rows 3 and 4: one past the top, and the last byte. -/
theorem test_storeRegs_top :
    isFault (runWord 0xFF55 (withRegs [] 0xFF1)) .invalidMemoryAccess = true ∧
      nextAnd (runWord 0xF055 (withRegs [(0, 0x77)] 0xFFF)) (fun t => t.memRead 0xFFF == some 0x77) = true := by decide

/-- T11 row 6. -/
theorem test_loadRegs :
    nextAnd (runWord 0xF265 ((withRegs [(3, 0x99)] 0x300).pokeList 0x300 [2, 3, 4, 5]))
      (fun t => t.getV 0 == 2 && t.getV 1 == 3 && t.getV 2 == 4 && t.getV 3 == 0x99 && t.i == 0x300) = true := by decide

/-- T11 row 7. -/
theorem test_loadRegs_out_of_range :
    isFault (runWord 0xF165 ((withRegs [(0, 9), (1, 9)] 0xFFF).poke 0xFFF 0x55)) .invalidMemoryAccess = true := by decide

/-! ### Display (T12) -/

/-- T12 row 14. -/
theorem test_cls :
    nextAnd (runWord 0x00E0 { withRegs [(15, 1)] 0 with fb := screen [(0, 0), (31, 63)] })
      (fun t => pixelsAre t [] [(0, 0), (31, 63), (15, 15)] && t.getV 15 == 1) = true := by decide +kernel

/-- T12 rows 3 and 4: a collision, and the column wrap. -/
theorem test_drw :
    nextAnd (runWord 0xD011 { (withRegs [] 0x300).poke 0x300 0xC0 with fb := screen [(0, 0)] })
        (fun t => pixelsAre t [(0, 1)] [(0, 0), (0, 2), (1, 0)] && t.getV 15 == 1) = true ∧
      nextAnd (runWord 0xD011 ((withRegs [(0, 60)] 0x300).poke 0x300 0xFF))
        (fun t => pixelsAre t [(0, 60), (0, 63), (0, 0), (0, 3)] [(0, 59), (0, 4), (1, 0)] && t.getV 15 == 0) = true := by
  decide +kernel

/-- T12 rows 6, 7 and 8: the row wrap, no row at all, and a sprite past the top. -/
theorem test_drw_edges :
    nextAnd (runWord 0xD012 ((withRegs [(1, 31)] 0x300).pokeList 0x300 [0x80, 0x80]))
        (fun t => pixelsAre t [(31, 0), (0, 0)] [(1, 0), (30, 0), (0, 1)] && t.getV 15 == 0) = true ∧
      nextAnd (runWord 0xD010 (withRegs [(15, 1)] 0x2000)) (fun t => pixelsAre t [] [(0, 0)] && t.getV 15 == 0) = true ∧
      isFault (runWord 0xD013 (withRegs [(15, 1)] 0xFFE)) .invalidMemoryAccess = true := by decide +kernel

/-! ### Keys and timers (T13) -/

/-- A latch with keys 7 and 9 pressed. -/
def keys7and9 : Vector Bool 16 := ((Vector.replicate 16 false).set 7 true).set 9 true

/-- T13 rows 2 and 5. -/
theorem test_skp :
    nextAnd (runWord 0xE49E (withRegs [(4, 7)] 0)) (fun t => t.pc == 0x202) = true ∧
      nextAnd (runWord 0xE49E { withRegs [(4, 0x17)] 0 with keypad := keys7and9 }) (fun t => t.pc == 0x204) = true := by
  decide

/-- T13 rows 3 and 4. -/
theorem test_sknp :
    nextAnd (runWord 0xE4A1 (withRegs [(4, 7)] 0)) (fun t => t.pc == 0x204) = true ∧
      nextAnd (runWord 0xE4A1 { withRegs [(4, 7)] 0 with keypad := keys7and9 }) (fun t => t.pc == 0x202) = true := by decide

/-- T13 rows 7 and 8: no key, and the least of two. -/
theorem test_ldVxKey :
    nextAnd (runWord 0xF10A { withRegs [(1, 0x33)] 0 with dt := 3, st := 1 })
        (fun t => t.pc == 0x200 && t.getV 1 == 0x33 && t.dt == 2 && t.st == 0) = true ∧
      nextAnd (runWord 0xF10A { withRegs [(1, 0x33)] 0 with keypad := keys7and9 })
        (fun t => t.pc == 0x202 && t.getV 1 == 7) = true := by decide

/-- T13 rows 11 and 12. -/
theorem test_ldVxDT :
    nextAnd (runWord 0xF207 { State.reset with dt := 5 }) (fun t => t.getV 2 == 5 && t.dt == 4) = true ∧
      nextAnd (runWord 0xF207 (withRegs [(2, 9)] 0)) (fun t => t.getV 2 == 0 && t.dt == 0) = true := by decide

/-- T13 rows 13 and 15. -/
theorem test_ldDT :
    nextAnd (runWord 0xF015 { withRegs [(0, 5)] 0 with dt := 9 }) (fun t => t.dt == 4) = true ∧
      nextAnd (runWord 0xF015 { State.reset with dt := 9 }) (fun t => t.dt == 0) = true := by decide

/-- T13 rows 17 and 19. -/
theorem test_ldST :
    nextAnd (runWord 0xF018 (withRegs [(0, 3)] 0)) (fun t => t.st == 2 && soundActive t) = true ∧
      nextAnd (runWord 0xF018 (withRegs [(0, 1)] 0)) (fun t => t.st == 0 && !soundActive t) = true := by decide

/-! ### Witnesses: states and operands that meet the hypotheses of each statement, at the edges of its clauses -/

/-- An outcome that some test accepts is a next state. -/
theorem exists_next {o : Host.Outcome State Fault Refusal} {p : State → Bool} (h : nextAnd o p = true) :
    ∃ t, o = .next t ∧ p t = true := by
  cases o with
  | next t => exact ⟨t, rfl, h⟩
  | fault f => exact absurd h Bool.false_ne_true
  | refused r => exact absurd h Bool.false_ne_true

theorem exists_fault {o : Host.Outcome State Fault Refusal} {f : Fault} (h : isFault o f = true) : o = .fault f := by
  cases o with
  | next t => exact absurd h Bool.false_ne_true
  | fault g => rw [beq_iff_eq.1 h]
  | refused r => exact absurd h Bool.false_ne_true

/-- A state in which every instruction completes: one live stack slot, key 7 pressed, `I` in range. -/
def busy : State :=
  { withRegs [(0, 7), (15, 3)] 0x300 with
    sp := 1, stack := 0x206 :: List.replicate 15 0, keypad := keys7and9, dt := 5, st := 1 }

/-- The canonical words with `x = 0`, `y = 1` of all 34 instructions, and one no-operation (R66, R67). -/
def oneOfEach : List Nat :=
  [0x00E0, 0x00EE, 0x1300, 0x2300, 0x3007, 0x4007, 0x5010, 0x9010, 0x6001, 0x7001, 0x8010, 0x8011, 0x8012, 0x8013,
   0x8014, 0x8015, 0x8016] ++
  [0x8017, 0x801E, 0xA300, 0xBFFF, 0xC00F, 0xD012, 0xE09E, 0xE0A1, 0xF007, 0xF015, 0xF018, 0xF00A, 0xF01E, 0xF029,
   0xF033, 0xF055, 0xF065, 0x8018]

theorem witness_DecodeOfEncodeGivesTheInstruction :
    (Instr.drw 15 15 15).wellFormed = true ∧ (Instr.jp 0xFFF).wellFormed = true ∧ (Instr.nop 0xFFFF).wellFormed = true := by
  decide

theorem witness_EncodeOfDecodeGivesTheWord :
    isAlias 0x00E0 = false ∧ isAlias 0x5FF0 = false ∧ isAlias 0xE09E = false ∧ isAlias 0xFFFF = false := by decide

theorem witness_AliasWordsRunAsTheirCanonicalWord :
    isAlias 0x0000 = true ∧ isAlias 0x0FFE = true ∧ isAlias 0x500F = true ∧ isAlias 0x9001 = true ∧
      isAlias 0xEFFE = true ∧ isAlias 0xE001 = true ∧ opOf 0xE001 ≠ 0x0 := by decide

theorem witness_DecodeSelectsTheRowOfTheOpcodeMap :
    (⟨"CLS", 0xF00F, 0x0000⟩ : OpcodeRow) ∈ opcodeTable ∧ OpcodeRow.selects ⟨"CLS", 0xF00F, 0x0000⟩ 0x0000 = true := by
  decide

/-- The last fetchable address, an instruction that completes and one that faults, and a fetch out of range. -/
theorem witness_StepRunsTheDecodedInstruction :
    (({ State.reset with pc := 4094 }.withFetchWord 16 0x6055).memRead 4094 = some 0x60 ∧
      ({ State.reset with pc := 4094 }.withFetchWord 16 0x6055).memRead 4095 = some 0x55 ∧
      decodeBytes [0x60, 0x55] = .ok (.ldImm 0 0x55, [])) ∧
      ((State.reset.withFetchWord 16 0x00EE).memRead 0x200 = some 0x00 ∧
        (State.reset.withFetchWord 16 0x00EE).memRead 0x201 = some 0xEE ∧ decodeBytes [0x00, 0xEE] = .ok (.ret, [])) ∧
      ({ State.reset with pc := 4095 }.memRead 4095 ≠ none ∧ { State.reset with pc := 4095 }.memRead 4096 = none) := by
  decide

theorem witness_FetchFaultsExactlyAbove4094 :
    4094 < ({ State.reset with pc := 4095 } : State).pc.toNat ∧ ({ State.reset with pc := 4095 } : State).fetch = none ∧
      ({ State.reset with pc := 4094 } : State).fetch ≠ none := by decide

/-- Each listed fault at its edge, in states with `SP <= STACK_DEPTH`. -/
theorem witness_CycleFaultsExactlyAsListed :
    isFault (step { State.reset with pc := 4095 }) .invalidMemoryAccess = true ∧
      isFault (runWord 0x2300 { State.reset with sp := 16 }) .stackOverflow = true ∧
      isFault (runWord 0x00EE State.reset) .stackUnderflow = true ∧
      isFault (runWord 0xD001 (withRegs [] 4096)) .invalidMemoryAccess = true ∧
      isFault (runWord 0xF033 (withRegs [] 4094)) .invalidMemoryAccess = true ∧
      isFault (runWord 0xFF55 (withRegs [] 4081)) .invalidMemoryAccess = true ∧
      isFault (runWord 0xFF65 (withRegs [] 4081)) .invalidMemoryAccess = true ∧
      State.reset.sp ≤ State.reset.cfg.stackDepth ∧ 16 ≤ State.reset.cfg.stackDepth := by decide

theorem witness_FaultRepeatsWhateverTheInputs : ∃ (s : State) (f : Fault), step s = .fault f :=
  ⟨{ State.reset with pc := 4095 }, .invalidMemoryAccess, exists_fault (by decide)⟩

/-- All 35 instructions are fetched and complete in one state (for the random one the draw is not looked at). -/
theorem witness_every_cycle :
    oneOfEach.all (fun w =>
      (busy.withFetchWord 16 w).fetch == some (BitVec.ofNat 16 w) && nextAnd (runWord w busy) fun _ => true) = true := by
  decide +kernel

theorem witness_TimersTickInEverySuccessfulCycle :
    ∃ (s t : State) (w : Word), s.fetch = some w ∧ step s = .next t ∧ (∃ x, decodeWord w = .ldDT x) ∧
      ∀ x, decodeWord w ≠ .ldST x :=
  let s := busy.withFetchWord 16 0xF015
  have h : nextAnd (step s) (fun _ => true) = true := by decide
  ⟨s, (exists_next h).choose, 0xF015, by decide, (exists_next h).choose_spec.1, ⟨0, by decide⟩, by decide⟩

/-- The same with the other timer and the timer read. -/
theorem witness_TimersTickInEverySuccessfulCycle_others :
    (busy.withFetchWord 16 0xF018).fetch = some 0xF018 ∧ decodeWord 0xF018 = .ldST 0 ∧
      nextAnd (runWord 0xF018 busy) (fun t => t.st == 6) = true ∧ (busy.withFetchWord 16 0xF007).fetch = some 0xF007 ∧
      decodeWord 0xF007 = .ldVxDT 0 ∧ nextAnd (runWord 0xF007 busy) (fun t => t.getV 0 == 5) = true := by decide

/-- The edges of its clauses: the last fetchable address, the greatest sum, the key wait with and without a key. -/
theorem witness_ProgramCounterAfterACycle :
    nextAnd (runWord 0x3000 { State.reset with pc := 4094 }) (fun t => t.pc == 4098) = true ∧
      nextAnd (runWord 0xBFFF (withRegs [(0, 0xFF)] 0)) (fun t => t.pc == 0x10FE) = true ∧
      nextAnd (runWord 0xF00A busy) (fun t => t.pc == 0x202) = true ∧
      nextAnd (runWord 0xF00A State.reset) (fun t => t.pc == 0x200) = true := by decide

theorem witness_NopOnlyAdvancesAndTicks :
    (busy.withFetchWord 16 0xFFFF).fetch = some 0xFFFF ∧ unmapped 0xFFFF = true := by decide

/-- Below capacity by one, and at capacity. -/
theorem witness_CallPushesTheReturnAddress :
    State.reset.stack.length = State.reset.cfg.stackDepth ∧
      ({ State.reset with sp := 15 } : State).sp < State.reset.cfg.stackDepth ∧
      ({ State.reset with sp := 16 } : State).sp = State.reset.cfg.stackDepth := by decide

theorem witness_ReturnPopsTheReturnAddress : busy.sp ≠ 0 ∧ State.reset.sp = 0 := by decide

/-- The last free slot but one, and a state after a nested call that has returned: its stack is not the call's. -/
theorem witness_ReturnGoesToTheMostRecentCall :
    ∃ (nnn : Addr12) (s t u : State), s.stack.length = s.cfg.stackDepth ∧ exec (.call nnn) s = .next t ∧ u.sp = t.sp ∧
      u.stack.length = t.stack.length ∧ (∀ k, k < t.sp → u.slot k = t.slot k) ∧ u.stack ≠ t.stack :=
  ⟨0x300, { State.reset with sp := 14 }, { State.reset with sp := 15, stack := State.reset.stack.set 14 0x200, pc := 0x300 },
    { State.reset with sp := 15, stack := (State.reset.stack.set 14 0x200).set 15 0x302, pc := 0x302 }, by decide, rfl, rfl,
    by decide, by decide, by decide⟩

/-- The last digit's glyph, its last byte. -/
theorem witness_GlyphAddressSelectsTheGlyph :
    (withRegs [(0, 15)] 0).cfg.valid = true ∧ ((withRegs [(0, 15)] 0).getV 0).toNat < 16 ∧ 4 < 5 := by decide

theorem witness_DecimalDigitsAreStored :
    (withRegs [] 4093).i.toNat ≤ 4093 ∧ 4093 < (withRegs [] 4094).i.toNat := by decide

theorem witness_RegistersAreStoredFromTheIndex :
    (withRegs [] 4080).i.toNat + (15 : Reg).val ≤ 4095 ∧ 4095 < (withRegs [] 4081).i.toNat + (15 : Reg).val := by decide

/-- Both edges of the range, and a load in a state in which `V[0]` has changed since the store. -/
theorem witness_RegistersAreLoadedFromTheIndex :
    ((withRegs [] 4080).i.toNat + (15 : Reg).val ≤ 4095 ∧ 4095 < (withRegs [] 4081).i.toNat + (15 : Reg).val) ∧
      ∃ (x : Reg) (s t u : State), exec (.storeRegs x) s = .next t ∧ u.i = s.i ∧ u.getV 0 ≠ s.getV 0 ∧
        ∀ k : Reg, k ≤ x → u.memRead (s.i.toNat + k.val) = t.memRead (s.i.toNat + k.val) :=
  have ⟨t, ht, hp⟩ := exists_next (o := exec (.storeRegs 15) (withRegs [(0, 1)] 4080))
    (p := fun t => t.i == (withRegs [(0, 1)] 4080).i) (by decide)
  ⟨by decide, 15, withRegs [(0, 1)] 4080, t, t.setV 0 9, ht, beq_iff_eq.1 hp, by rw [State.getV_setV_self]; decide,
    fun _ _ => rfl⟩

theorem witness_StoredWordIsFetchedNext :
    ∃ (x k k' : Reg) (s t u : State), exec (.storeRegs x) s = .next t ∧ k'.val = k.val + 1 ∧ k' ≤ x ∧
      u.pc.toNat = s.i.toNat + k.val ∧ SameMemory t u :=
  have ⟨t, ht, _⟩ := exists_next (o := exec (.storeRegs 15) (withRegs [] 4080)) (p := fun _ => true) (by decide)
  ⟨15, 14, 15, withRegs [] 4080, t, { t with pc := 4094 }, ht, rfl, by decide, rfl, fun _ => rfl⟩

/-- No row with `I` out of range, the last byte in range, the first out of range; a covered pixel that is on, and one
that is off. -/
theorem witness_DrawFlipsExactlyTheCoveredPixels :
    ((0 : Fin 16).val = 0 ∧ 4096 < (withRegs [] 0x2000).i.toNat) ∧
      (withRegs [] 4081).i.toNat + (15 : Fin 16).val ≤ 4096 ∧
      (0 < (15 : Fin 16).val ∧ 4096 < (withRegs [] 4082).i.toNat + (15 : Fin 16).val) ∧
      SpriteCovers (withRegs [] 0x050) 0 0 1 0 0 ∧ pixel (withRegs [] 0x050).fb 0 0 = false ∧
      pixel ({ withRegs [] 0x050 with fb := screen [(0, 0)] } : State).fb 0 0 = true :=
  ⟨by decide, by decide, by decide, ⟨0, 0, 0xF0, by decide, by decide, by decide, by decide, by decide, by decide⟩,
    by decide, by decide +kernel⟩

theorem witness_DrawingTwiceRestoresTheScreen :
    (∃ t, exec (.drw 0 0 1) (withRegs [] 0x050) = .next t) ∧ (∃ py px, SpriteCovers (withRegs [] 0x050) 0 0 1 py px) ∧
      ∀ py px, SpriteCovers (withRegs [] 0x050) 0 0 1 py px → pixel (withRegs [] 0x050).fb py px = false :=
  ⟨(exists_next (p := fun _ => true) (by decide +kernel)).imp fun _ h => h.1,
    ⟨0, 0, 0, 0, 0xF0, by decide, by decide, by decide, by decide, by decide, by decide⟩,
    fun py px _ => pixel_blankScreen py px⟩

theorem witness_FramebufferCellsAreRowMajor : (2047 : Fin 2048).val = (31 : Fin 32).val * 64 + (63 : Fin 64).val := by decide

/-- The first and the last key, selected by a byte whose high bits are set. -/
theorem witness_KeySkipsTestTheSelectedKey :
    (0 : Fin 16).val = ((withRegs [(3, 0xF0)] 0).getV 3).toNat % 16 ∧
      (15 : Fin 16).val = ((withRegs [(3, 0xFF)] 0).getV 3).toNat % 16 := by decide

theorem witness_KeyWaitTakesTheLeastKeyOrRepeats :
    (busy.keypad[(7 : Fin 16)] = true ∧ ∀ j : Fin 16, j < 7 → busy.keypad[j] = false) ∧
      (∀ k : Fin 16, State.reset.keypad[k] = false) ∧ (State.reset.withFetchWord 16 0xFF0A).fetch = some 0xFF0A ∧
      decodeWord 0xFF0A = .ldVxKey 15 ∧ ∀ k : Fin 16, (State.reset.withFetchWord 16 0xFF0A).keypad[k] = false := by decide

theorem witness_TimerInstructionsMoveTheirTimer :
    ((busy.withFetchWord 16 0xFF07).fetch = some 0xFF07 ∧ decodeWord 0xFF07 = .ldVxDT 15) ∧
      ((busy.withFetchWord 16 0xF015).fetch = some 0xF015 ∧ decodeWord 0xF015 = .ldDT 0) ∧
      ((busy.withFetchWord 16 0xF018).fetch = some 0xF018 ∧ decodeWord 0xF018 = .ldST 0) := by decide

/-- Every owner completes and changes its store; the key latch and the parameters have none. -/
theorem witness_EachStoreHasOnlyItsWriters :
    nextAnd (exec (.ldI 1) busy) (fun t => t.i != busy.i) = true ∧
      nextAnd (exec (.addI 0) busy) (fun t => t.i != busy.i) = true ∧
      nextAnd (exec (.ldF 0) busy) (fun t => t.i != busy.i) = true ∧
      nextAnd (exec (.call 1) busy) (fun t => t.stack != busy.stack && t.sp != busy.sp) = true ∧
      nextAnd (exec .ret busy) (fun t => t.sp != busy.sp) = true ∧
      nextAnd (exec (.ldDT 0) busy) (fun t => t.dt != busy.dt) = true ∧
      nextAnd (exec (.ldST 0) busy) (fun t => t.st != busy.st) = true ∧
      nextAnd (exec (.ldB 0) busy) (fun t => t.mem != busy.mem) = true ∧
      nextAnd (exec (.storeRegs 0) busy) (fun t => t.mem != busy.mem) = true ∧
      nextAnd (exec (.drw 1 1 5) { busy with i := 0x050 }) (fun t => pixel t.fb 0 0) = true ∧
      nextAnd (exec .cls { busy with fb := screen [(0, 0)] }) (fun t => !pixel t.fb 0 0) = true ∧
      nextAnd (exec (.rnd 0 0) busy) (fun t => t.draws != busy.draws) = true := by decide +kernel

/-- A flag writer that changes `VF`, one that names it as its destination, and one that leaves it. -/
theorem witness_FlagHasOnlyItsWriters :
    nextAnd (exec (.addReg 0 1) busy) (fun t => t.getV 15 == 0) = true ∧
      nextAnd (exec (.ldImm 15 9) busy) (fun t => t.getV 15 == 9) = true ∧
      nextAnd (exec (.orReg 0 1) busy) (fun t => t.getV 15 == 3) = true := by decide

theorem witness_SoundTimerIsNeverRead :
    (∃ t, exec (.ldVxDT 0) busy = .next t) ∧ exec .ret State.reset = .fault .stackUnderflow :=
  ⟨(exists_next (p := fun _ => true) (by decide)).imp fun _ h => h.1, rfl⟩

/-- Two different states that agree but for a dead slot, one live; and two that fault. -/
theorem witness_DeadStackSlotsAreUnobservable :
    (∃ s t : State, State.SameButDeadSlots s t ∧ s ≠ t ∧ (∃ s', step s = .next s')) ∧
      ∃ s t : State, State.SameButDeadSlots s t ∧ s ≠ t ∧ ∃ f, step s = .fault f :=
  ⟨⟨busy, { busy with stack := [0x206, 1, 2, 3, 4, 5, 6, 7, 8, 9, 10, 11, 12, 13, 14, 15] },
      ⟨rfl, fun k hk => by have h : k = 0 := Nat.lt_one_iff.1 hk
                           subst h; rfl, rfl⟩,
      fun h => absurd (congrArg State.stack h) (by decide),
      (exists_next (p := fun _ => true) (by decide)).imp fun _ h => h.1⟩,
    { State.reset with pc := 4095 }, { State.reset with pc := 4095, stack := List.replicate 16 0x222 },
      ⟨rfl, fun k hk => absurd hk (Nat.not_lt_zero k), rfl⟩,
      fun h => absurd (congrArg State.stack h) (by decide), .invalidMemoryAccess, exists_fault (by decide)⟩

/-- The defaults, and parameters at both edges: one slot, the font just below 0x200 and at 0. -/
theorem witness_ConstructZeroesAllButFontAndPc :
    defaultConfig.valid = true ∧ ({ defaultConfig with stackDepth := 1, fontBase := 432 } : Config).valid = true ∧
      ({ defaultConfig with fontBase := 0 } : Config).valid = true ∧ 79 < fontSize := by decide

theorem reset_inv : State.reset.Inv :=
  ⟨by decide, by decide, by decide, by decide, fun a ha => by rw [List.eq_of_mem_replicate ha]; decide, by decide⟩

/-- The same legal parameters. -/
theorem witness_ConstructMeetsTheInvariant : defaultConfig.valid = true := by decide

/-- A state at the edges of the invariant that meets it: a full stack of the greatest return addresses, the last byte of
memory changed, `PC` at the last fetchable address; a return from it completes. -/
theorem witness_StepKeepsTheInvariant : ∃ s t : State, s.Inv ∧ s.sp = 16 ∧ s.slot 15 = 4096 ∧ step s = .next t :=
  let s : State := { State.reset with
    pc := 4094, sp := 16, stack := List.replicate 16 4096, mem := [(4095, 0xEE)] }
  have h : nextAnd (step s) (fun _ => true) = true := by decide
  ⟨s, (exists_next h).choose, ⟨by decide, by decide, by decide, by decide, fun a ha => by rw [List.eq_of_mem_replicate ha]; decide, by decide⟩, rfl, by decide,
    (exists_next h).choose_spec.1⟩

theorem witness_ReachableStatesMeetTheInvariant :
    ∃ s : State, defaultConfig.valid = true ∧ State.Reachable defaultConfig s ∧ s.pc = 0x202 ∧ s.keypad[(15 : Fin 16)] = true :=
  ⟨runActions [.load [0x22, 0x00], .cycle, .construct, .writeKey 15 true, .cycle] (State.construct defaultConfig),
    by decide, ⟨_, rfl⟩, by decide, by decide⟩

/-- The longest image that fits, and one byte more. -/
theorem witness_LoadCopiesTheImageOrFails :
    (List.replicate 3584 (0xAA : Byte)).length ≤ 3584 ∧ 3584 < (List.replicate 3585 (0xAA : Byte)).length := by
  simp only [List.length_replicate]; decide

theorem witness_LoadLeavesTheFont : State.reset.cfg.valid = true ∧ 79 < fontSize := by decide

/-- At the last fetchable address, with a pixel on and both timers running. -/
theorem witness_ZeroWordTurnsEveryPixelOff :
    let s : State := { State.reset with pc := 4094, fb := screen [(31, 63)], dt := 1, st := 2 }
    s.memRead s.pc.toNat = some 0 ∧ s.memRead (s.pc.toNat + 1) = some 0 ∧ pixel s.fb 31 63 = true := by decide +kernel

end Sys2Proof.Tests
end

section
/-! PROOFS. The scope's statements (00_scope.md): how a cycle and a load can end (R10), and the invariant of every history of
host actions (R5, R6). Both rest on one inversion lemma, `exec_effect`: all that a behaviour can do to its outcome and to
what the invariant reads. -/

namespace Sys2Proof.Machine

/-! ### What one behaviour can do -/

/-- `t` agrees with `s` on what `State.Inv` reads, `PC` apart. -/
structure SameStores (s t : State) : Prop where
  cfg : t.cfg = s.cfg
  mem : t.mem = s.mem
  stack : t.stack = s.stack
  sp : t.sp = s.sp

/-- The ways a behaviour that sees state `s` (its `PC` already advanced, 40_cycle.md R81) can end, as far as the faults and
`State.Inv` are concerned. `exec_effect` ties it to `exec`. -/
inductive Effect (s : State) : Host.Outcome State Fault Refusal → Prop where
  /-- on to the next instruction -/
  | run {t : State} (same : SameStores s t) (hpc : t.pc = s.pc) : Effect s (.next t)
  /-- a skip (41_flow.md R94) -/
  | skip {t : State} (same : SameStores s t) (hpc : t.pc = s.pc + 2) : Effect s (.next t)
  /-- back to this instruction (45_keypad_timers.md R137) -/
  | wait {t : State} (same : SameStores s t) (hpc : t.pc = s.pc - 2) : Effect s (.next t)
  /-- a jump (41_flow.md R90, R93) -/
  | jump {t : State} (same : SameStores s t) (hpc : t.pc.toNat ≤ maxPc) : Effect s (.next t)
  /-- a call below capacity (41_flow.md R91) -/
  | push {target : Word} (room : s.sp < s.cfg.stackDepth) (hpc : target.toNat ≤ maxPc) :
      Effect s (.next { s with stack := s.stack.set s.sp s.pc, sp := s.sp + 1, pc := target })
  /-- a return from a call (41_flow.md R92) -/
  | pop (live : s.sp ≠ 0) : Effect s (.next { s with sp := s.sp - 1, pc := s.slot (s.sp - 1) })
  /-- a store in range (43_index_memory.md R114) -/
  | store {base : Nat} {bs : List Byte} (inRange : base + bs.length ≤ 4096) : Effect s (.next (s.pokeList base bs))
  /-- a call at capacity (60_exceptions.md R151) -/
  | overflow (full : s.cfg.stackDepth ≤ s.sp) : Effect s (.fault .stackOverflow)
  /-- a return with no call (R152) -/
  | underflow (empty : s.sp = 0) : Effect s (.fault .stackUnderflow)
  /-- an access out of range (R153) -/
  | badAccess : Effect s (.fault .invalidMemoryAccess)

theorem zextAddr_le (nnn : Addr12) : (zextAddr nnn).toNat ≤ 4095 := by
  have := nnn.isLt
  simp only [zextAddr, BitVec.toNat_setWidth]
  omega

/-- The sum of `Bnnn` does not wrap (10_state.md R25). -/
theorem jpV0_target_le (b : Byte) (nnn : Addr12) : (zextByte b + zextAddr nnn).toNat ≤ maxPc := by
  have hb := b.isLt
  have hn := nnn.isLt
  simp only [zextByte, zextAddr, BitVec.toNat_add, BitVec.toNat_setWidth, maxPc]
  omega

theorem effect_setV (s : State) (x : Reg) (b : Byte) : Effect s (.next (s.setV x b)) :=
  .run ⟨rfl, rfl, rfl, rfl⟩ rfl

theorem effect_setVFlag (s : State) (x : Reg) (r : Byte) (f : Bool) : Effect s (.next (s.setVFlag x r f)) :=
  .run ⟨rfl, rfl, rfl, rfl⟩ rfl

theorem effect_skipIf (s : State) (c : Bool) : Effect s (.next (s.skipIf c)) :=
  match c with
  | true => .skip ⟨rfl, rfl, rfl, rfl⟩ rfl
  | false => .run ⟨rfl, rfl, rfl, rfl⟩ rfl

theorem effect_storeSpan (s : State) (base : Nat) (bs : List Byte) (hne : bs.length ≠ 0) :
    Effect s (storeSpan base bs s) := by
  obtain ⟨h, e⟩ | ⟨-, e⟩ := storeSpan_cases base bs s <;> rw [e]
  · exact .store (h.resolve_left hne)
  · exact .badAccess

theorem effect_call (s : State) (nnn : Addr12) : Effect s (execCall nnn s) := by
  unfold execCall
  obtain ⟨h, e⟩ | ⟨h, e⟩ := pushAndJump_cases s.pc (zextAddr nnn) s <;> rw [e]
  · exact .push h (Nat.le_trans (zextAddr_le nnn) (by decide))
  · exact .overflow h

theorem effect_ret (s : State) : Effect s (execRet s) := by
  unfold execRet
  obtain ⟨h, e⟩ | ⟨h, e⟩ := popToPc_cases s <;> rw [e]
  · exact .pop h
  · exact .underflow h

theorem effect_drw (s : State) (x y : Reg) (n : Fin 16) : Effect s (execDrw x y n s) := by
  unfold execDrw
  cases s.loadSpan s.base n.val with
  | some sprite => exact .run ⟨rfl, rfl, rfl, rfl⟩ rfl
  | none => exact .badAccess

theorem effect_loadRegs (s : State) (x : Reg) : Effect s (execLoadRegs x s) := by
  unfold execLoadRegs
  cases s.loadSpan s.base (x.val + 1) with
  | some bs => exact .run ⟨by simp, by simp, by simp, by simp⟩ (by simp)
  | none => exact .badAccess

theorem effect_ldVxKey (s : State) (x : Reg) : Effect s (execLdVxKey x s) := by
  unfold execLdVxKey
  cases s.firstKey with
  | some k => exact effect_setV s x _
  | none => exact .wait ⟨rfl, rfl, rfl, rfl⟩ rfl

/-- All that a behaviour can do (40_cycle.md R82): no instruction ends in a refusal or in `ProgramTooLarge`. -/
theorem exec_effect (s : State) (i : Instr) : Effect s (exec i s) :=
  match i with
  | .ret => effect_ret s
  | .call nnn => effect_call s nnn
  | .jp nnn => .jump ⟨rfl, rfl, rfl, rfl⟩ (Nat.le_trans (zextAddr_le nnn) (by decide))
  | .jpV0 nnn => .jump ⟨rfl, rfl, rfl, rfl⟩ (jpV0_target_le (s.getV 0) nnn)
  | .seImm .. | .sneImm .. | .seReg .. | .sneReg .. | .skp .. | .sknp .. => effect_skipIf s _
  | .ldImm .. | .addImm .. | .ldReg .. | .orReg .. | .andReg .. | .xorReg .. | .ldVxDT .. => effect_setV s _ _
  | .addReg .. | .subReg .. | .shr .. | .subnReg .. | .shl .. => effect_setVFlag s _ _ _
  | .cls | .ldI .. | .addI .. | .ldF .. | .rnd .. | .ldDT .. | .ldST .. | .nop .. => .run ⟨rfl, rfl, rfl, rfl⟩ rfl
  | .ldVxKey x => effect_ldVxKey s x
  | .drw x y n => effect_drw s x y n
  | .ldB x => effect_storeSpan s s.base (decimalDigits (s.getV x)) (by simp [decimalDigits])
  | .storeRegs x => effect_storeSpan s s.base (s.firstRegs x) (by simp)
  | .loadRegs x => effect_loadRegs s x

/-! ### How a cycle ends -/

theorem Effect.outcome_closed {s : State} {o : Host.Outcome State Fault Refusal} (e : Effect s o) :
    (∃ t, o = .next t) ∨ o = .fault .stackOverflow ∨ o = .fault .stackUnderflow ∨ o = .fault .invalidMemoryAccess := by
  cases e with
  | overflow => exact .inr (.inl rfl)
  | underflow => exact .inr (.inr (.inl rfl))
  | badAccess => exact .inr (.inr (.inr rfl))
  | _ => exact .inl ⟨_, rfl⟩

/-- All the outcomes of a cycle (00_scope.md R10). -/
theorem step_outcome_closed (s : State) :
    (∃ t, step s = .next t) ∨ step s = .fault .stackOverflow ∨ step s = .fault .stackUnderflow ∨
      step s = .fault .invalidMemoryAccess := by
  cases hf : s.fetch with
  | none => exact .inr (.inr (.inr ((step_fault_iff s _).2 (.inl ⟨hf, rfl⟩))))
  | some w =>
    rw [step_of_fetch hf]
    obtain ⟨t, h⟩ | h | h | h := (exec_effect s.advance (decodeWord w)).outcome_closed <;> simp [h]

/-- Settles O10, from the closed outcomes of a cycle and of a load. -/
theorem cycleAndLoadOutcomesAreClosed : Obligations.CycleAndLoadOutcomesAreClosed := by
  refine ⟨fun s => ?_, fun s bytes => ?_⟩
  · obtain h | h := step_outcome_closed s
    · exact .inl h
    · refine .inr ⟨h, ?_⟩
      obtain h | h | h := h <;> rw [h, stateAfter_fault]
  · obtain ⟨-, h⟩ | ⟨-, h⟩ := load_cases bytes s
    · exact .inl ⟨_, h⟩
    · exact .inr ⟨h, by rw [h, stateAfter_fault]⟩

/-! ### What keeps the invariant -/

theorem State.Inv.of_sameStores {s t : State} (h : s.Inv) (same : SameStores s t) (hpc : t.pc.toNat ≤ maxPc) :
    t.Inv := by
  obtain ⟨hcfg, hmem, hstack, hsp⟩ := same
  exact ⟨by rw [hcfg]; exact h.cfgValid, by rw [hcfg, hmem]; exact h.memWf, by rw [hcfg, hstack]; exact h.slots,
    by rw [hcfg, hsp]; exact h.spBound, by rw [hstack]; exact h.returns, hpc⟩

/-- A call keeps the invariant: the slot it writes holds the advanced `PC` (41_flow.md R91). -/
theorem State.Inv.push {s : State} (h : s.Inv) {a target : Word} (room : s.sp < s.cfg.stackDepth)
    (ha : a.toNat ≤ maxReturn) (hpc : target.toNat ≤ maxPc) :
    State.Inv { s with stack := s.stack.set s.sp a, sp := s.sp + 1, pc := target } where
  cfgValid := h.cfgValid
  memWf := h.memWf
  slots := by rw [List.length_set, h.slots]
  spBound := room
  returns b hb := by
    obtain hb | rfl := List.mem_or_eq_of_mem_set hb
    · exact h.returns b hb
    · exact ha
  pcBound := hpc

/-- A return keeps the invariant: the slot it reads is one of the stack's (41_flow.md R92). -/
theorem State.Inv.pop {s : State} (h : s.Inv) (live : s.sp ≠ 0) :
    State.Inv { s with sp := s.sp - 1, pc := s.slot (s.sp - 1) } where
  cfgValid := h.cfgValid
  memWf := h.memWf
  slots := h.slots
  spBound := Nat.le_trans (Nat.sub_le _ _) h.spBound
  returns := h.returns
  pcBound := by
    have hslot : s.sp - 1 < s.stack.length := by
      rw [h.slots]
      exact Nat.lt_of_lt_of_le (Nat.sub_one_lt live) h.spBound
    exact Nat.le_trans (h.returns _ (s.slot_mem _ hslot)) (by decide)

theorem State.Inv.pokeList {s : State} (h : s.Inv) {base : Nat} {bs : List Byte} (inRange : base + bs.length ≤ 4096) :
    (s.pokeList base bs).Inv where
  cfgValid := by simpa using h.cfgValid
  memWf := by simpa using s.wf_pokeList base bs h.memWf inRange
  slots := by simpa using h.slots
  spBound := by simpa using h.spBound
  returns := by simpa using h.returns
  pcBound := by simpa using h.pcBound

/-- A behaviour keeps the invariant where `PC` has been advanced past a fetched word, so that neither a skip nor a key wait
wraps (10_state.md R25). -/
theorem Effect.keeps_inv {s t : State} (e : Effect s (.next t)) (h : s.Inv) (hlo : 2 ≤ s.pc.toNat)
    (hhi : s.pc.toNat ≤ maxReturn) : t.Inv ∧ t.cfg = s.cfg := by
  simp only [maxReturn] at hhi
  cases e with
  | run same hpc => exact ⟨h.of_sameStores same (hpc ▸ h.pcBound), same.cfg⟩
  | skip same hpc => exact ⟨h.of_sameStores same (by rw [hpc, maxPc]; bv_omega), same.cfg⟩
  | wait same hpc => exact ⟨h.of_sameStores same (by rw [hpc, maxPc]; bv_omega), same.cfg⟩
  | jump same hpc => exact ⟨h.of_sameStores same hpc, same.cfg⟩
  | push room hpc => exact ⟨h.push room hhi hpc, rfl⟩
  | pop live => exact ⟨h.pop live, rfl⟩
  | store inRange => exact ⟨h.pokeList inRange, by simp⟩

/-- The cycle keeps the invariant and the OPEN parameters. -/
theorem step_keeps_inv {s t : State} (h : s.Inv) (hst : step s = .next t) : t.Inv ∧ t.cfg = s.cfg := by
  obtain ⟨w, u, hf, hex, rfl⟩ := (step_next_iff s t).1 hst
  have hpc : s.pc.toNat + 1 < 4096 := by
    obtain ⟨hlt, -⟩ | ⟨-, hnone⟩ := s.fetch_cases
    · exact hlt
    · simp [hnone] at hf
  have hadv : s.advance.pc.toNat = s.pc.toNat + 2 := by rw [State.advance_pc]; bv_omega
  have hinv : s.advance.Inv := h.of_sameStores ⟨rfl, rfl, rfl, rfl⟩ (by rw [hadv, maxPc]; omega)
  have heff : Effect s.advance (.next u) := hex ▸ exec_effect s.advance (decodeWord w)
  obtain ⟨hu, hcfg⟩ := heff.keeps_inv hinv (by omega) (by rw [hadv, maxReturn]; omega)
  exact ⟨hu.of_sameStores ⟨rfl, rfl, rfl, rfl⟩ hu.pcBound, hcfg⟩

theorem construct_inv {cfg : Config} (h : cfg.valid = true) : (State.construct cfg).Inv where
  cfgValid := h
  memWf := Memory.wf_nil cfg
  slots := List.length_replicate
  spBound := Nat.zero_le _
  returns a ha := by rw [List.eq_of_mem_replicate ha]; decide
  pcBound := (by decide : (BitVec.ofNat 16 progBase).toNat ≤ maxPc)

theorem load_keeps_inv (bytes : List Byte) {s : State} (h : s.Inv) :
    (stateAfter s (load bytes s)).Inv ∧ (stateAfter s (load bytes s)).cfg = s.cfg := by
  obtain ⟨hlen, e⟩ | ⟨-, e⟩ := load_cases bytes s <;> rw [e]
  · exact ⟨h.pokeList (by rw [progBase]; omega), by simp⟩
  · exact ⟨h, rfl⟩

/-- Every action of the host keeps the invariant and the OPEN parameters, whatever its outcome. -/
theorem act_keeps_inv (a : HostAction) {s : State} (h : s.Inv) :
    (stateAfter s (act a s)).Inv ∧ (stateAfter s (act a s)).cfg = s.cfg := by
  cases a with
  | construct =>
    have hc := construct_inv h.cfgValid
    exact ⟨hc.of_sameStores ⟨rfl, rfl, rfl, rfl⟩ hc.pcBound, rfl⟩
  | load bytes => exact load_keeps_inv bytes h
  | writeKey k pressed => exact ⟨h.of_sameStores ⟨rfl, rfl, rfl, rfl⟩ h.pcBound, rfl⟩
  | cycle =>
    show (stateAfter s (step s)).Inv ∧ (stateAfter s (step s)).cfg = s.cfg
    cases hst : step s with
    | next t => exact step_keeps_inv h hst
    | fault f => exact ⟨h, rfl⟩
    | refused r => exact ⟨h, rfl⟩

/-- Settles O47, by induction over the host's actions: `construct()` meets the invariant and every action keeps it. -/
theorem reachableStatesMeetTheInvariant : Obligations.ReachableStatesMeetTheInvariant := by
  rintro cfg s hcfg ⟨as, rfl⟩
  refine runActions_induction (fun t => t.Inv ∧ t.cfg = cfg) as _ ⟨construct_inv hcfg, rfl⟩ ?_
  rintro a t ⟨hinv, rfl⟩
  exact act_keeps_inv a hinv

end Sys2Proof.Machine
end

section
/-! PROOFS. The machine's state (10_state.md). Two facts about `exec` carry the statements of the family: `exec_frame`, the
stores a behaviour leaves alone, and `exec_mapStackST`, that no instruction but `2nnn`, `00EE` and `Fx18` uses the stack or
the sound timer. -/

namespace Sys2Proof.Machine

/-! ### The invariant at the start and over a cycle -/

/-- Settles O46, by the step lemma of the invariant: every effect of a behaviour keeps it. -/
theorem stepKeepsTheInvariant : Obligations.StepKeepsTheInvariant :=
  fun _ _ hinv hst => step_keeps_inv hinv hst

/-- Settles O45, by the base case of the invariant; the default parameters are legal. -/
theorem constructMeetsTheInvariant : Obligations.ConstructMeetsTheInvariant :=
  ⟨fun _ hcfg => construct_inv hcfg, construct_inv (cfg := defaultConfig) (by decide)⟩

/-! ### What a behaviour leaves alone -/

/-- `s` with the stores that `i` may write taken from `t`. `exec_frame` ties it to `exec`. -/
def State.takeWritten (s : State) (i : Instr) (t : State) : State :=
  match i with
  | .nop _ => s
  | .cls => { s with fb := t.fb }
  | .ret => { s with sp := t.sp, pc := t.pc }
  | .call _ => { s with stack := t.stack, sp := t.sp, pc := t.pc }
  | .jp _ | .jpV0 _ | .seImm .. | .sneImm .. | .seReg .. | .sneReg .. | .skp _ | .sknp _ => { s with pc := t.pc }
  | .ldI _ | .addI _ | .ldF _ => { s with i := t.i }
  | .rnd .. => { s with v := t.v, draws := t.draws }
  | .drw .. => { s with v := t.v, fb := t.fb }
  | .ldVxKey _ => { s with v := t.v, pc := t.pc }
  | .ldDT _ => { s with dt := t.dt }
  | .ldST _ => { s with st := t.st }
  | .ldB _ | .storeRegs _ => { s with mem := t.mem }
  | _ => { s with v := t.v }

theorem skipIf_frame {s t : State} {c : Bool}
    (h : (.next (s.skipIf c) : Host.Outcome State Fault Refusal) = .next t) : t = { s with pc := t.pc } := by
  cases h
  cases c <;> rfl

theorem storeSpan_frame {s t : State} {base : Nat} {bs : List Byte} (h : storeSpan base bs s = .next t) :
    t = { s with mem := t.mem } := by
  obtain ⟨-, e⟩ | ⟨-, e⟩ := storeSpan_cases base bs s <;> rw [e] at h <;> cases h
  exact s.pokeList_eq base bs

theorem execCall_next {s t : State} {nnn : Addr12} (h : execCall nnn s = .next t) :
    s.sp < s.cfg.stackDepth ∧
      t = { s with stack := s.stack.set s.sp s.pc, sp := s.sp + 1, pc := zextAddr nnn } := by
  unfold execCall at h
  obtain ⟨room, e⟩ | ⟨-, e⟩ := pushAndJump_cases s.pc (zextAddr nnn) s <;> rw [e] at h <;> cases h
  exact ⟨room, rfl⟩

theorem execRet_next {s t : State} (h : execRet s = .next t) :
    s.sp ≠ 0 ∧ t = { s with sp := s.sp - 1, pc := s.slot (s.sp - 1) } := by
  unfold execRet at h
  obtain ⟨live, e⟩ | ⟨-, e⟩ := popToPc_cases s <;> rw [e] at h <;> cases h
  exact ⟨live, rfl⟩

theorem execLdVxKey_next {s t : State} {x : Reg} (h : execLdVxKey x s = .next t) :
    (∃ k, s.firstKey = some k ∧ t = s.setV x (BitVec.ofNat 8 k)) ∨
      (s.firstKey = none ∧ t = { s with pc := s.pc - 2 }) := by
  unfold execLdVxKey at h
  cases hk : s.firstKey with
  | some k =>
    rw [hk] at h
    cases h
    exact .inl ⟨k, rfl, rfl⟩
  | none =>
    rw [hk] at h
    cases h
    exact .inr ⟨rfl, rfl⟩

/-- A completed draw writes the framebuffer, and the flag last (44_display.md R127). -/
theorem execDrw_next {s t : State} {x y : Reg} {n : Fin 16} (h : execDrw x y n s = .next t) :
    ∃ d : Draw, t = { s with fb := d.fb }.setV flagReg (flagByte d.collision) := by
  unfold execDrw at h
  cases hl : s.loadSpan s.base n.val with
  | some sprite =>
    rw [hl] at h
    cases h
    exact ⟨_, rfl⟩
  | none =>
    rw [hl] at h
    cases h

theorem execLoadRegs_next {s t : State} {x : Reg} (h : execLoadRegs x s = .next t) :
    ∃ bs : List Byte, bs.length = x.val + 1 ∧ t = s.setRegsFrom 0 bs := by
  unfold execLoadRegs at h
  obtain ⟨-, e⟩ | ⟨-, e⟩ := s.loadSpan_cases s.base (x.val + 1) <;> rw [e] at h <;> cases h
  exact ⟨_, by simp, rfl⟩

/-- The frame of every behaviour (10_state.md R20): a completed instruction changes at most the stores it may write. -/
theorem exec_frame {i : Instr} {s t : State} (h : exec i s = .next t) : t = s.takeWritten i t := by
  cases i with
  | ret =>
    obtain ⟨-, rfl⟩ := execRet_next h
    rfl
  | call nnn =>
    obtain ⟨-, rfl⟩ := execCall_next h
    rfl
  | seImm | sneImm | seReg | sneReg | skp | sknp => exact skipIf_frame h
  | ldB | storeRegs => exact storeSpan_frame h
  | ldVxKey x => obtain ⟨k, -, rfl⟩ | ⟨-, rfl⟩ := execLdVxKey_next h <;> rfl
  | drw x y n =>
    obtain ⟨d, rfl⟩ := execDrw_next h
    rfl
  | loadRegs x =>
    obtain ⟨bs, -, rfl⟩ := execLoadRegs_next h
    exact s.setRegsFrom_eq 0 bs
  | _ =>
    cases h
    rfl

/-! ### The writers of each store -/

section Writers

variable {i : Instr} {s t : State} (h : exec i s = .next t)
include h

theorem exec_keypad : t.keypad = s.keypad := by
  have e := congrArg State.keypad (exec_frame h)
  cases i <;> exact e

theorem exec_cfg : t.cfg = s.cfg := by
  have e := congrArg State.cfg (exec_frame h)
  cases i <;> exact e

theorem index_writers (hne : t.i ≠ s.i) : (∃ nnn, i = .ldI nnn) ∨ (∃ x, i = .addI x) ∨ ∃ x, i = .ldF x := by
  have e := congrArg State.i (exec_frame h)
  cases i with
  | ldI nnn => exact .inl ⟨nnn, rfl⟩
  | addI x => exact .inr (.inl ⟨x, rfl⟩)
  | ldF x => exact .inr (.inr ⟨x, rfl⟩)
  | _ => exact absurd e hne

theorem stack_writers (hne : t.stack ≠ s.stack) : ∃ nnn, i = .call nnn := by
  have e := congrArg State.stack (exec_frame h)
  cases i with
  | call nnn => exact ⟨nnn, rfl⟩
  | _ => exact absurd e hne

theorem sp_writers (hne : t.sp ≠ s.sp) : (∃ nnn, i = .call nnn) ∨ i = .ret := by
  have e := congrArg State.sp (exec_frame h)
  cases i with
  | call nnn => exact .inl ⟨nnn, rfl⟩
  | ret => exact .inr rfl
  | _ => exact absurd e hne

theorem dt_writers (hne : t.dt ≠ s.dt) : ∃ x, i = .ldDT x := by
  have e := congrArg State.dt (exec_frame h)
  cases i with
  | ldDT x => exact ⟨x, rfl⟩
  | _ => exact absurd e hne

theorem st_writers (hne : t.st ≠ s.st) : ∃ x, i = .ldST x := by
  have e := congrArg State.st (exec_frame h)
  cases i with
  | ldST x => exact ⟨x, rfl⟩
  | _ => exact absurd e hne

theorem fb_writers (hne : t.fb ≠ s.fb) : i = .cls ∨ ∃ x y n, i = .drw x y n := by
  have e := congrArg State.fb (exec_frame h)
  cases i with
  | cls => exact .inl rfl
  | drw x y n => exact .inr ⟨x, y, n, rfl⟩
  | _ => exact absurd e hne

theorem mem_writers (hne : t.mem ≠ s.mem) : (∃ x, i = .ldB x) ∨ ∃ x, i = .storeRegs x := by
  have e := congrArg State.mem (exec_frame h)
  cases i with
  | ldB x => exact .inl ⟨x, rfl⟩
  | storeRegs x => exact .inr ⟨x, rfl⟩
  | _ => exact absurd e hne

theorem draws_writers (hne : t.draws ≠ s.draws) : ∃ x kk, i = .rnd x kk := by
  have e := congrArg State.draws (exec_frame h)
  cases i with
  | rnd x kk => exact ⟨x, kk, rfl⟩
  | _ => exact absurd e hne

end Writers

/-- Settles O40, store by store from the frame of every behaviour. -/
theorem eachStoreHasOnlyItsWriters : Obligations.EachStoreHasOnlyItsWriters := fun _ _ _ h =>
  ⟨exec_keypad h, exec_cfg h, index_writers h, stack_writers h, sp_writers h, dt_writers h, st_writers h, fb_writers h,
    mem_writers h, draws_writers h⟩

/-! ### PC -/

theorem zextAddr_toNat (nnn : Addr12) : (zextAddr nnn).toNat = nnn.toNat :=
  BitVec.toNat_setWidth_of_le (by decide)

/-- The exact sum of `Bnnn`: at most 0x10FE, so it does not wrap (10_state.md R25). -/
theorem jpV0_target_toNat (b : Byte) (nnn : Addr12) :
    (zextByte b + zextAddr nnn).toNat = b.toNat + nnn.toNat := by
  have hb := b.isLt
  have hn := nnn.isLt
  simp only [zextByte, zextAddr, BitVec.toNat_add, BitVec.toNat_setWidth]
  omega

/-- A key wait finds no key exactly when none is pressed (45_keypad_timers.md R137). -/
theorem firstKey_eq_none_iff (s : State) : s.firstKey = none ↔ ∀ k : Fin 16, s.keypad[k] = false := by
  simp [State.firstKey, Fin.forall_iff, List.findIdx?_eq_none_iff, Vector.mem_iff_getElem]

theorem advance_skipIf_pc (s : State) (c : Bool) :
    (s.advance.skipIf c).pc = if c = true then s.pc + 4 else s.pc + 2 := by
  have : s.pc + 2 + 2 = s.pc + 4 := by bv_omega
  rw [State.skipIf_pc, State.advance_pc, this]

/-- A key wait goes on exactly when a key is pressed, and else back to itself. -/
theorem execLdVxKey_advance_pc {s t : State} {x : Reg} (h : execLdVxKey x s.advance = .next t) :
    ((∃ k : Fin 16, s.keypad[k] = true) → t.pc = s.pc + 2) ∧ ((∀ k : Fin 16, s.keypad[k] = false) → t.pc = s.pc) := by
  obtain ⟨k, hk, rfl⟩ | ⟨hk, rfl⟩ := execLdVxKey_next h
  · refine ⟨fun _ => rfl, fun hoff => ?_⟩
    rw [(firstKey_eq_none_iff s.advance).2 hoff] at hk
    cases hk
  · have hoff := (firstKey_eq_none_iff s.advance).1 hk
    refine ⟨fun ⟨k, hon⟩ => ?_, fun _ => ?_⟩
    · exact absurd (hon.symm.trans (hoff k)) (by decide)
    · show s.pc + 2 - 2 = s.pc
      bv_omega

/-- Settles O14: the transfers by their own next state, every other instruction by its frame, which holds the advanced
`PC`. -/
theorem programCounterAfterACycle : Obligations.ProgramCounterAfterACycle := by
  intro s t w hf hst
  obtain ⟨w', u, hf', hex, rfl⟩ := (step_next_iff s t).1 hst
  obtain rfl : w = w' := Option.some.inj (hf.symm.trans hf')
  rw [State.tick_pc]
  generalize decodeWord w = i at hex
  cases i with
  | jp nnn =>
    cases hex
    exact zextAddr_toNat nnn
  | call nnn =>
    obtain ⟨-, rfl⟩ := execCall_next hex
    exact zextAddr_toNat nnn
  | jpV0 nnn =>
    cases hex
    exact jpV0_target_toNat (s.getV 0) nnn
  | ret =>
    obtain ⟨-, rfl⟩ := execRet_next hex
    rfl
  | seImm x kk =>
    cases hex
    simpa using advance_skipIf_pc s (s.getV x == kk)
  | sneImm x kk =>
    cases hex
    simpa using advance_skipIf_pc s (s.getV x != kk)
  | seReg x y =>
    cases hex
    simpa using advance_skipIf_pc s (s.getV x == s.getV y)
  | sneReg x y =>
    cases hex
    simpa using advance_skipIf_pc s (s.getV x != s.getV y)
  | skp x | sknp x =>
    cases hex
    exact (ite_eq_or_eq _ _ _).symm.imp (advance_skipIf_pc s _).trans (advance_skipIf_pc s _).trans
  | ldVxKey x => exact execLdVxKey_advance_pc hex
  | _ => exact congrArg State.pc (exec_frame hex)

/-! ### VF -/

theorem flagByte_eq (b : Bool) : flagByte b = 0 ∨ flagByte b = 1 := by
  cases b
  · exact .inl rfl
  · exact .inr rfl

theorem getV_flagReg_setV (s : State) (b : Bool) :
    (s.setV flagReg (flagByte b)).getV 15 = 0 ∨ (s.setV flagReg (flagByte b)).getV 15 = 1 := by
  rw [show (15 : Reg) = flagReg from rfl, State.getV_setV_self]
  exact flagByte_eq b

/-- Settles O41: the flag writers write VF last, the register writers write another register, and the frame of every other
instruction holds the registers. -/
theorem flagHasOnlyItsWriters : Obligations.FlagHasOnlyItsWriters := by
  intro i s t h
  cases i with
  | addReg x y | subReg x y | subnReg x y | shr x y | shl x y =>
    cases h
    exact getV_flagReg_setV _ _
  | drw x y n =>
    obtain ⟨d, rfl⟩ := execDrw_next h
    exact getV_flagReg_setV _ _
  | ldImm x _ | addImm x _ | rnd x _ | ldVxDT x | ldReg x _ | orReg x _ | andReg x _ | xorReg x _ =>
    cases h
    exact fun hx => State.getV_setV_of_ne s _ (Ne.symm hx)
  | ldVxKey x =>
    intro hx
    obtain ⟨k, -, rfl⟩ | ⟨-, rfl⟩ := execLdVxKey_next h
    · exact State.getV_setV_of_ne s _ (Ne.symm hx)
    · rfl
  | loadRegs x =>
    intro hx
    obtain ⟨bs, hlen, rfl⟩ := execLoadRegs_next h
    have hlast : bs.length ≤ (15 : Reg).val := hlen ▸ Fin.lt_last_iff_ne_last.2 hx
    rw [State.getV_setRegsFrom, if_neg (by omega)]
  | _ => exact State.getV_congr (congrArg State.v (exec_frame h)) 15

/-! ### The call stack -/

/-- Settles O19: the pop reads the slot that the push wrote, and the later state kept it. -/
theorem returnGoesToTheMostRecentCall : Obligations.ReturnGoesToTheMostRecentCall := by
  intro nnn s t u hslots hcall hsp hlen hlive
  obtain ⟨room, rfl⟩ := execCall_next hcall
  have hpushed (k : Nat) (hk : k < s.sp + 1) : u.slot k = if k = s.sp then s.pc else s.slot k :=
    (hlive k hk).trans (s.slot_set _ s.sp k s.pc rfl (hslots ▸ room))
  have hpop : u.sp - 1 = s.sp := by rw [hsp, Nat.add_sub_cancel]
  obtain ⟨-, e⟩ | ⟨hempty, -⟩ := popToPc_cases u
  · refine ⟨_, e, ?_, hpop, hlen.trans List.length_set, fun k hk => ?_⟩
    · show u.slot (u.sp - 1) = s.pc
      rw [hpop, hpushed s.sp (Nat.lt_succ_self _), if_pos rfl]
    · exact (hpushed k (Nat.lt_succ_of_lt hk)).trans (if_neg (Nat.ne_of_lt hk))
  · exact absurd (hsp.symm.trans hempty) (Nat.succ_ne_zero s.sp)

/-! ### Behaviours that do not look at the stack or the sound timer -/

/-- The outcome with its next state changed by `g`. -/
def mapNext (g : State → State) (o : Host.Outcome State Fault Refusal) : Host.Outcome State Fault Refusal :=
  match o with
  | .next t => .next (g t)
  | .fault f => .fault f
  | .refused r => .refused r

/-- `s` with its stack and its sound timer rewritten. -/
def State.mapStackST (f : List Word → List Word) (g : Byte → Byte) (s : State) : State :=
  { s with stack := f s.stack, st := g s.st }

/-- The instructions that read or write the stack or the sound timer: `2nnn`, `00EE` and `Fx18`. -/
def usesStackOrST (i : Instr) : Bool :=
  match i with
  | .call _ | .ret | .ldST _ => true
  | _ => false

section MapStackST

variable (f : List Word → List Word) (g : Byte → Byte)

theorem pokeList_mapStackST (s : State) (base : Nat) (bs : List Byte) :
    (s.mapStackST f g).pokeList base bs = (s.pokeList base bs).mapStackST f g := by
  induction bs generalizing s base with
  | nil => rfl
  | cons b rest ih => exact ih (s.poke base b) (base + 1)

theorem setRegsFrom_mapStackST (s : State) (k : Nat) (bs : List Byte) :
    (s.mapStackST f g).setRegsFrom k bs = (s.setRegsFrom k bs).mapStackST f g := by
  induction bs generalizing s k with
  | nil => rfl
  | cons b rest ih => exact ih { s with v := s.v.setIfInBounds k b } (k + 1)

theorem skipIf_mapStackST (s : State) (c : Bool) :
    (s.mapStackST f g).skipIf c = (s.skipIf c).mapStackST f g := by
  cases c <;> rfl

theorem storeSpan_mapStackST (s : State) (base : Nat) (bs : List Byte) :
    storeSpan base bs (s.mapStackST f g) = mapNext (State.mapStackST f g) (storeSpan base bs s) := by
  unfold storeSpan
  split
  · exact congrArg Host.Outcome.next (pokeList_mapStackST f g s base bs)
  · rfl

theorem execDrw_mapStackST (s : State) (x y : Reg) (n : Fin 16) :
    execDrw x y n (s.mapStackST f g) = mapNext (State.mapStackST f g) (execDrw x y n s) := by
  have hspan : (s.mapStackST f g).loadSpan (s.mapStackST f g).base n.val = s.loadSpan s.base n.val := rfl
  unfold execDrw
  rw [hspan]
  cases s.loadSpan s.base n.val <;> rfl

theorem execLoadRegs_mapStackST (s : State) (x : Reg) :
    execLoadRegs x (s.mapStackST f g) = mapNext (State.mapStackST f g) (execLoadRegs x s) := by
  have hspan : (s.mapStackST f g).loadSpan (s.mapStackST f g).base (x.val + 1) = s.loadSpan s.base (x.val + 1) := rfl
  unfold execLoadRegs
  rw [hspan]
  cases s.loadSpan s.base (x.val + 1) with
  | some bs => exact congrArg Host.Outcome.next (setRegsFrom_mapStackST f g s 0 bs)
  | none => rfl

theorem execLdVxKey_mapStackST (s : State) (x : Reg) :
    execLdVxKey x (s.mapStackST f g) = mapNext (State.mapStackST f g) (execLdVxKey x s) := by
  have hkey : (s.mapStackST f g).firstKey = s.firstKey := rfl
  unfold execLdVxKey
  rw [hkey]
  cases s.firstKey <;> rfl

/-- Every instruction but these runs the same whatever the stack and the sound timer hold, and leaves both alone. -/
theorem exec_mapStackST (s : State) {i : Instr} (hi : usesStackOrST i = false) :
    exec i (s.mapStackST f g) = mapNext (State.mapStackST f g) (exec i s) := by
  cases i with
  | call | ret | ldST => cases hi
  | seImm | sneImm | seReg | sneReg | skp | sknp => exact congrArg Host.Outcome.next (skipIf_mapStackST f g s _)
  | ldB | storeRegs => exact storeSpan_mapStackST f g s _ _
  | drw x y n => exact execDrw_mapStackST f g s x y n
  | loadRegs x => exact execLoadRegs_mapStackST f g s x
  | ldVxKey x => exact execLdVxKey_mapStackST f g s x
  | _ => rfl

end MapStackST

/-! ### The sound timer -/

theorem pushAndJump_withST (s : State) (a target : Word) (b : Byte) :
    pushAndJump a target { s with st := b } = mapNext (State.mapStackST id fun _ => b) (pushAndJump a target s) := by
  unfold pushAndJump
  split <;> rfl

theorem popToPc_withST (s : State) (b : Byte) :
    popToPc { s with st := b } = mapNext (State.mapStackST id fun _ => b) (popToPc s) := by
  unfold popToPc
  split <;> rfl

/-- Only `Fx18` is left out: it writes ST, so it forgets what ST held (45_keypad_timers.md R140). -/
theorem exec_withST (i : Instr) (s : State) (b : Byte) (hi : ∀ x, i ≠ .ldST x) :
    exec i { s with st := b } = mapNext (State.mapStackST id fun _ => b) (exec i s) := by
  cases hu : usesStackOrST i with
  | false => exact exec_mapStackST id (fun _ => b) s hu
  | true =>
    cases i with
    | call nnn => exact pushAndJump_withST s s.pc (zextAddr nnn) b
    | ret => exact popToPc_withST s b
    | ldST x => exact absurd rfl (hi x)
    | _ => cases hu

/-- Settles O42: a behaviour with another ST ends as before, ST apart. -/
theorem soundTimerIsNeverRead : Obligations.SoundTimerIsNeverRead := by
  intro i s b
  by_cases hi : ∃ x, i = .ldST x
  · obtain ⟨x, rfl⟩ := hi
    refine ⟨fun t h => ?_, fun f h => ?_⟩ <;> cases h
    exact ⟨s.getV x, rfl⟩
  · rw [exec_withST i s b fun x e => hi ⟨x, e⟩]
    exact ⟨fun t h => ⟨b, by rw [h]; rfl⟩, fun f h => by rw [h]; rfl⟩

/-! ### Dead stack slots -/

/-- What a list of slots holds after a write of slot `p`: where there is no such slot, the write is lost. -/
theorem getD_set (l : List Word) (p k : Nat) (a : Word) :
    (l.set p a).getD k 0 = if k = p ∧ p < l.length then a else l.getD k 0 := by
  by_cases hk : k = p
  · subst hk
    by_cases hlt : k < l.length <;> simp [List.getD_eq_getElem?_getD, hlt]
  · simp [List.getD_eq_getElem?_getD, List.getElem?_set_ne (Ne.symm hk), hk]

section DeadSlots

variable {s t : State} (h : State.SameButDeadSlots s t)
include h

/-- The second state is the first with another list of slots. -/
theorem State.SameButDeadSlots.exists_stack : ∃ l, t = { s with stack := l } := ⟨t.stack, h.rest.symm⟩

theorem State.SameButDeadSlots.advance : State.SameButDeadSlots s.advance t.advance := by
  obtain ⟨l, rfl⟩ := h.exists_stack
  exact ⟨rfl, h.live, h.slots⟩

theorem State.SameButDeadSlots.tick : State.SameButDeadSlots s.tick t.tick := by
  obtain ⟨l, rfl⟩ := h.exists_stack
  exact ⟨rfl, h.live, h.slots⟩

theorem State.SameButDeadSlots.fetch_eq : t.fetch = s.fetch := by
  obtain ⟨l, rfl⟩ := h.exists_stack
  rfl

/-- A push makes one more slot live and writes that one in both states; where there is no such slot, both read 0. -/
theorem State.SameButDeadSlots.push (a target : Word) :
    State.SameButDeadSlots { s with stack := s.stack.set s.sp a, sp := s.sp + 1, pc := target }
      { t with stack := t.stack.set t.sp a, sp := t.sp + 1, pc := target } := by
  obtain ⟨l, rfl⟩ := h.exists_stack
  have hlen : s.stack.length = l.length := h.slots
  refine ⟨rfl, fun k hk => ?_, by simpa using hlen⟩
  show (s.stack.set s.sp a).getD k 0 = (l.set s.sp a).getD k 0
  rw [getD_set, getD_set, hlen]
  split
  · rfl
  next hnot =>
    obtain hlt | hk := Nat.lt_succ_iff_lt_or_eq.1 hk
    · exact h.live k hlt
    · have hpast : l.length ≤ k := by omega
      rw [List.getD_eq_default _ _ hpast, List.getD_eq_default _ _ (hlen ▸ hpast)]

theorem State.SameButDeadSlots.pop (live : s.sp ≠ 0) :
    State.SameButDeadSlots { s with sp := s.sp - 1, pc := s.slot (s.sp - 1) }
      { t with sp := t.sp - 1, pc := t.slot (t.sp - 1) } := by
  have hpc := h.live (s.sp - 1) (Nat.sub_one_lt live)
  obtain ⟨l, rfl⟩ := h.exists_stack
  exact ⟨congrArg (fun a => ({ s with stack := l, sp := s.sp - 1, pc := a } : State)) hpc,
    fun k hk => h.live k (Nat.lt_of_lt_of_le hk (Nat.sub_le _ _)), h.slots⟩

end DeadSlots

/-- Two ends of a behaviour that agree but for dead stack slots. -/
inductive EndAlike : Host.Outcome State Fault Refusal → Host.Outcome State Fault Refusal → Prop where
  | next {s t : State} (h : State.SameButDeadSlots s t) : EndAlike (.next s) (.next t)
  | fault (f : Fault) : EndAlike (.fault f) (.fault f)
  | refused (r : Refusal) : EndAlike (.refused r) (.refused r)

theorem EndAlike.of_next {s : State} {p : Host.Outcome State Fault Refusal} (h : EndAlike (.next s) p) :
    ∃ t, p = .next t ∧ State.SameButDeadSlots s t := by
  cases h with
  | next h => exact ⟨_, rfl, h⟩

theorem EndAlike.of_fault {f : Fault} {p : Host.Outcome State Fault Refusal} (h : EndAlike (.fault f) p) :
    p = .fault f := by
  cases h
  rfl

theorem EndAlike.completeCycle {o p : Host.Outcome State Fault Refusal} (h : EndAlike o p) :
    EndAlike (completeCycle o) (completeCycle p) := by
  cases h with
  | next h => exact .next h.tick
  | fault f => exact .fault f
  | refused r => exact .refused r

section ExecAlike

variable {s t : State} (h : State.SameButDeadSlots s t)
include h

theorem execCall_alike (nnn : Addr12) : EndAlike (execCall nnn s) (execCall nnn t) := by
  have hpush := h.push s.pc (zextAddr nnn)
  obtain ⟨l, rfl⟩ := h.exists_stack
  unfold execCall pushAndJump
  split
  · exact .next hpush
  · exact .fault _

theorem execRet_alike : EndAlike (execRet s) (execRet t) := by
  have hpop := h.pop
  obtain ⟨l, rfl⟩ := h.exists_stack
  unfold execRet popToPc
  split
  · exact .fault _
  next live => exact .next (hpop live)

/-- A behaviour that leaves the stack and SP alone keeps the dead slots dead. -/
theorem exec_alike_of_frame {i : Instr} (hi : usesStackOrST i = false) : EndAlike (exec i s) (exec i t) := by
  obtain ⟨l, rfl⟩ := h.exists_stack
  rw [show ({ s with stack := l } : State) = s.mapStackST (fun _ => l) id from rfl, exec_mapStackST _ _ s hi]
  cases he : exec i s with
  | next u =>
    have hstack : u.stack = s.stack := by
      by_contra hne
      obtain ⟨nnn, rfl⟩ := stack_writers he hne
      cases hi
    have hsp : u.sp = s.sp := by
      by_contra hne
      obtain ⟨nnn, rfl⟩ | rfl := sp_writers he hne <;> cases hi
    refine .next ⟨rfl, fun k hk => ?_, hstack ▸ h.slots⟩
    exact (congrArg (fun m => m.getD k 0) hstack).trans (h.live k (hsp ▸ hk))
  | fault f => exact .fault f
  | refused r => exact .refused r

/-- Every behaviour ends alike from two such states. -/
theorem exec_alike (i : Instr) : EndAlike (exec i s) (exec i t) := by
  cases hu : usesStackOrST i with
  | false => exact exec_alike_of_frame h hu
  | true =>
    cases i with
    | call nnn => exact execCall_alike h nnn
    | ret => exact execRet_alike h
    | ldST x =>
      obtain ⟨l, rfl⟩ := h.exists_stack
      exact .next ⟨rfl, h.live, h.slots⟩
    | _ => cases hu

theorem step_alike : EndAlike (step s) (step t) := by
  unfold step
  rw [h.fetch_eq]
  cases s.fetch with
  | none => exact .fault _
  | some w => exact (exec_alike h.advance (decodeWord w)).completeCycle

end ExecAlike

/-- Settles O43: two states that differ in dead slots end every cycle alike. -/
theorem deadStackSlotsAreUnobservable : Obligations.DeadStackSlotsAreUnobservable := fun _ _ h =>
  ⟨fun _ hs => (hs ▸ step_alike h).of_next, fun _ hf => (hf ▸ step_alike h).of_fault⟩

/-! ### The host's view of the framebuffer -/

/-- Settles O36: the quotient and the remainder of `y * 64 + x` by 64 are `y` and `x`. -/
theorem framebufferCellsAreRowMajor : Obligations.FramebufferCellsAreRowMajor := by
  intro s y x k hk
  have hrow : (⟨k.val / 64, by omega⟩ : Fin 32) = y := Fin.ext (by simp only; omega)
  have hcol : (⟨k.val % 64, by omega⟩ : Fin 64) = x := Fin.ext (by simp only; omega)
  rw [framebufferCell, hrow, hcol]

/-! ### The state after `construct()` -/

theorem Memory.unlisted_font (cfg : Config) (k : Nat) (h : k < fontSize) :
    Memory.unlisted cfg (cfg.fontBase + k) = cfg.fontData[k] := by
  simp [Memory.unlisted, h]

theorem Memory.unlisted_outside_font (cfg : Config) (a : Nat) (h : a < cfg.fontBase ∨ cfg.fontBase + fontSize ≤ a) :
    Memory.unlisted cfg a = 0 :=
  dif_neg (by omega)

/-- In a fresh machine every byte in range is as memory is at reset (R33). -/
theorem construct_memRead (cfg : Config) {a : Nat} (h : a < 4096) :
    (State.construct cfg).memRead a = some (Memory.unlisted cfg a) :=
  (State.construct cfg).memRead_of_lt h

theorem font_below_program {cfg : Config} (h : cfg.valid = true) : cfg.fontBase + fontSize ≤ 0x200 := by
  simp only [Config.valid, Bool.and_eq_true, decide_eq_true_eq] at h
  exact h.2

theorem construct_slot (cfg : Config) (k : Nat) : (State.construct cfg).slot k = 0 :=
  List.getElem?_getD_replicate_default_eq _ cfg.stackDepth k

/-- Settles O44, field by field. -/
theorem constructZeroesAllButFontAndPc : Obligations.ConstructZeroesAllButFontAndPc := by
  intro cfg hcfg
  have hfont := font_below_program hcfg
  refine ⟨fun k hk => ?_, fun a ha hout => ?_, fun r => ?_, rfl, rfl, rfl, fun k _ => construct_slot cfg k,
    List.length_replicate, rfl, rfl, pixel_blankScreen, fun k => ?_⟩
  · rw [construct_memRead cfg (by omega), Memory.unlisted_font cfg k hk]
  · rw [construct_memRead cfg ha, Memory.unlisted_outside_font cfg a hout]
  · exact Vector.getElem_replicate r.isLt
  · exact Vector.getElem_replicate k.isLt

end Sys2Proof.Machine
end

section
/-! PROOFS. Memory (20_memory.md). One fact carries the fetch: it joins the two bytes that memory gives at `PC`, high byte
first (R44). -/

namespace Sys2Proof.Machine

/-! ### The two bytes of a fetched word -/

@[simp] theorem wordOfBytes_highByte (hi lo : Byte) : (wordOfBytes hi lo).extractLsb' 8 8 = hi :=
  BitVec.extractLsb'_append_eq_left

@[simp] theorem wordOfBytes_lowByte (hi lo : Byte) : (wordOfBytes hi lo).extractLsb' 0 8 = lo :=
  BitVec.extractLsb'_append_eq_right

theorem State.fetch_of_memRead {s : State} {hi lo : Byte} (hhi : s.memRead s.pc.toNat = some hi)
    (hlo : s.memRead (s.pc.toNat + 1) = some lo) : s.fetch = some (wordOfBytes hi lo) := by
  rw [State.fetch, hhi, hlo]

/-- Settles O8: in range the fetch joins two bytes, and the halves of what it joins are those bytes; out of range the second
read has no byte. -/
theorem fetchReadsTheHighByteFirst : Obligations.FetchReadsTheHighByteFirst := by
  intro s w
  constructor
  · intro h
    obtain ⟨hpc, e⟩ | ⟨-, e⟩ := s.fetch_cases <;> rw [e] at h <;> cases h
    rw [wordOfBytes_highByte, wordOfBytes_lowByte]
    exact ⟨s.memRead_of_lt (Nat.lt_of_succ_lt hpc), s.memRead_of_lt hpc⟩
  · rintro ⟨hhi, hlo⟩
    rw [State.fetch_of_memRead hhi hlo, wordOfBytes_bytes]

theorem State.fetch_eq_none_iff (s : State) : s.fetch = none ↔ 4094 < s.pc.toNat := by
  obtain ⟨hpc, e⟩ | ⟨hpc, e⟩ := s.fetch_cases <;> simp only [e, reduceCtorEq, true_iff, false_iff] <;> omega

/-- Settles O9: a cycle that fetches no word faults. -/
theorem fetchFaultsExactlyAbove4094 : Obligations.FetchFaultsExactlyAbove4094 := fun s =>
  ⟨s.fetch_eq_none_iff, fun h => (step_fault_iff s _).2 (.inl ⟨s.fetch_eq_none_iff.2 h, rfl⟩)⟩

/-! ### A word stored and fetched -/

theorem State.fetch_pokeList_bytesOfWord (s : State) (w : Word) (h : s.pc.toNat + 1 < 4096) :
    (s.pokeList s.pc.toNat (bytesOfWord w)).fetch = some w := by
  have hlen : (bytesOfWord w).length = 2 := rfl
  refine (State.fetch_of_memRead ?_ ?_).trans (congrArg some (wordOfBytes_bytes w)) <;> rw [State.pokeList_pc]
  · exact s.memRead_pokeList_inside s.pc.toNat (bytesOfWord w) 0 (by omega) (by omega)
  · exact s.memRead_pokeList_inside s.pc.toNat (bytesOfWord w) 1 (by omega) h

/-- Settles O51: the word is written where the state fetches, at `PC` or, where no fetch can read, at `PROG_BASE`. -/
theorem placedWordIsFetchedNext : Obligations.PlacedWordIsFetchedNext := by
  intro s w
  have hword : tableWord 16 w = BitVec.ofNat 16 w := BitVec.eq_of_toNat_eq (by simp [tableWord])
  rw [State.withFetchWord, hword]
  apply State.fetch_pokeList_bytesOfWord
  split
  next h => exact h
  next => exact (by decide : (BitVec.ofNat 16 progBase).toNat + 1 < 4096)

/-- A completed `Fx55` leaves `V[k]` at `I + k`, in range (43_index_memory.md R119). -/
theorem execStoreRegs_memRead {s t : State} {x k : Reg} (h : execStoreRegs x s = .next t) (hk : k ≤ x) :
    t.memRead (s.i.toNat + k.val) = some (s.getV k) := by
  have hlen := s.firstRegs_length x
  have hkx : k.val ≤ x.val := hk
  obtain ⟨hspan, e⟩ | ⟨-, e⟩ := storeSpan_cases s.base (s.firstRegs x) s <;> rw [execStoreRegs, e] at h <;> cases h
  have hrange : s.base + (s.firstRegs x).length ≤ 4096 := hspan.resolve_left (by omega)
  rw [← s.firstRegs_getD x k hk]
  exact s.memRead_pokeList_inside s.base (s.firstRegs x) k.val (by omega) (by omega)

/-- Settles O32: the two reads of the fetch give the two registers that `Fx55` stored there. -/
theorem storedWordIsFetchedNext : Obligations.StoredWordIsFetchedNext := by
  intro x k k' s t u hstore hnext hx hpc hmem
  have hk : k ≤ x := Nat.le_of_succ_le (hnext.symm.trans_le hx)
  apply State.fetch_of_memRead
  · rw [hmem, hpc]
    exact execStoreRegs_memRead hstore hk
  · rw [hmem, hpc, Nat.add_assoc, ← hnext]
    exact execStoreRegs_memRead hstore hx

/-! ### The font under a load -/

/-- Settles O49: a load writes nothing below `PROG_BASE`, and the font of legal parameters stands below it. -/
theorem loadLeavesTheFont : Obligations.LoadLeavesTheFont := by
  intro bytes s k hcfg hk
  have hfont := font_below_program hcfg
  rw [act]
  obtain ⟨-, e⟩ | ⟨-, e⟩ := load_cases bytes s <;> rw [e]
  · exact s.memRead_pokeList_outside progBase bytes _ (.inl (by rw [progBase]; omega))
  · rfl

end Sys2Proof.Machine
end

section
/-! PROOFS. Encoding and decoding (30_encoding.md). Two relations carry the family: `Decodes`, the dispatch of R65 taken
apart once, and `SameKey`, that two words have the same dispatch key (R64), by which the decoder and the rows of R66 are
compared. -/

namespace Sys2Proof

/-! ### Fields (R61) -/

theorem opOf_lt (w : Word) : opOf w < 16 := (w.extractLsb' 12 4).isLt

theorem kkOf_toNat_eq (w : Word) : (kkOf w).toNat = (yOf w).val * 16 + (nOf w).val := by
  rw [kkOf_toNat, yOf_val, nOf_val]
  omega

theorem yOf_formatXSS (op : Nat) (h : op < 16) (x : Reg) (sub : Nat) (hs : sub < 256) :
    (yOf (formatXSS op x sub)).val = sub / 16 := by
  rw [yOf_val, formatXSS_toNat op h x sub hs]
  omega

/-! ### The dispatch of R65 -/

/-- R67's table, by the fields of R61. -/
theorem unmapped_iff (w : Word) :
    unmapped w = true ↔
      (opOf w = 0x0 ∧ (nOf w).val ∉ [0x0, 0xE]) ∨
        (opOf w = 0x8 ∧ (nOf w).val ∈ [0x8, 0x9, 0xA, 0xB, 0xC, 0xD, 0xF]) ∨
        (opOf w = 0xE ∧ (nOf w).val ∉ [0x1, 0xE]) ∨
        (opOf w = 0xF ∧ (kkOf w).toNat ∉ [0x07, 0x0A, 0x15, 0x18, 0x1E, 0x29, 0x33, 0x55, 0x65]) := by
  have hop : (w.extractLsb' 12 4).toNat = opOf w := rfl
  have hn : (w.extractLsb' 0 4).toNat = (nOf w).val := rfl
  have hkk : (w.extractLsb' 0 8).toNat = (kkOf w).toNat := rfl
  simp only [unmapped, hop, hn, hkk]
  split_ifs <;> simp [*]

theorem isAlias_of_unmapped {w : Word} (h : unmapped w = true) : isAlias w = false := by
  obtain ⟨op, n⟩ | ⟨op, -⟩ | ⟨op, n⟩ | ⟨op, -⟩ := (unmapped_iff w).1 h
  · simp_all [isAlias]
  · simp [isAlias, op]
  · simp_all [isAlias]
  · simp [isAlias, op]

/-- The dispatch of R65: the key a word has for each instruction, and the operands sliced from the word.
`decodeWord_decodes` ties it to `decodeWord`. -/
inductive Decodes (w : Word) : Instr → Prop where
  | cls (op : opOf w = 0x0) (n : (nOf w).val = 0x0) : Decodes w .cls
  | ret (op : opOf w = 0x0) (n : (nOf w).val = 0xE) : Decodes w .ret
  | jp (op : opOf w = 0x1) : Decodes w (.jp (nnnOf w))
  | call (op : opOf w = 0x2) : Decodes w (.call (nnnOf w))
  | seImm (op : opOf w = 0x3) : Decodes w (.seImm (xOf w) (kkOf w))
  | sneImm (op : opOf w = 0x4) : Decodes w (.sneImm (xOf w) (kkOf w))
  | seReg (op : opOf w = 0x5) : Decodes w (.seReg (xOf w) (yOf w))
  | sneReg (op : opOf w = 0x9) : Decodes w (.sneReg (xOf w) (yOf w))
  | ldImm (op : opOf w = 0x6) : Decodes w (.ldImm (xOf w) (kkOf w))
  | addImm (op : opOf w = 0x7) : Decodes w (.addImm (xOf w) (kkOf w))
  | ldReg (op : opOf w = 0x8) (n : (nOf w).val = 0x0) : Decodes w (.ldReg (xOf w) (yOf w))
  | orReg (op : opOf w = 0x8) (n : (nOf w).val = 0x1) : Decodes w (.orReg (xOf w) (yOf w))
  | andReg (op : opOf w = 0x8) (n : (nOf w).val = 0x2) : Decodes w (.andReg (xOf w) (yOf w))
  | xorReg (op : opOf w = 0x8) (n : (nOf w).val = 0x3) : Decodes w (.xorReg (xOf w) (yOf w))
  | addReg (op : opOf w = 0x8) (n : (nOf w).val = 0x4) : Decodes w (.addReg (xOf w) (yOf w))
  | subReg (op : opOf w = 0x8) (n : (nOf w).val = 0x5) : Decodes w (.subReg (xOf w) (yOf w))
  | shr (op : opOf w = 0x8) (n : (nOf w).val = 0x6) : Decodes w (.shr (xOf w) (yOf w))
  | subnReg (op : opOf w = 0x8) (n : (nOf w).val = 0x7) : Decodes w (.subnReg (xOf w) (yOf w))
  | shl (op : opOf w = 0x8) (n : (nOf w).val = 0xE) : Decodes w (.shl (xOf w) (yOf w))
  | ldI (op : opOf w = 0xA) : Decodes w (.ldI (nnnOf w))
  | jpV0 (op : opOf w = 0xB) : Decodes w (.jpV0 (nnnOf w))
  | rnd (op : opOf w = 0xC) : Decodes w (.rnd (xOf w) (kkOf w))
  | drw (op : opOf w = 0xD) : Decodes w (.drw (xOf w) (yOf w) (nOf w))
  | skp (op : opOf w = 0xE) (n : (nOf w).val = 0xE) : Decodes w (.skp (xOf w))
  | sknp (op : opOf w = 0xE) (n : (nOf w).val = 0x1) : Decodes w (.sknp (xOf w))
  | ldVxDT (op : opOf w = 0xF) (kk : (kkOf w).toNat = 0x07) : Decodes w (.ldVxDT (xOf w))
  | ldDT (op : opOf w = 0xF) (kk : (kkOf w).toNat = 0x15) : Decodes w (.ldDT (xOf w))
  | ldST (op : opOf w = 0xF) (kk : (kkOf w).toNat = 0x18) : Decodes w (.ldST (xOf w))
  | ldVxKey (op : opOf w = 0xF) (kk : (kkOf w).toNat = 0x0A) : Decodes w (.ldVxKey (xOf w))
  | addI (op : opOf w = 0xF) (kk : (kkOf w).toNat = 0x1E) : Decodes w (.addI (xOf w))
  | ldF (op : opOf w = 0xF) (kk : (kkOf w).toNat = 0x29) : Decodes w (.ldF (xOf w))
  | ldB (op : opOf w = 0xF) (kk : (kkOf w).toNat = 0x33) : Decodes w (.ldB (xOf w))
  | storeRegs (op : opOf w = 0xF) (kk : (kkOf w).toNat = 0x55) : Decodes w (.storeRegs (xOf w))
  | loadRegs (op : opOf w = 0xF) (kk : (kkOf w).toNat = 0x65) : Decodes w (.loadRegs (xOf w))
  | nop (noRow : unmapped w = true) : Decodes w (.nop w)

theorem decodes_family0 {w : Word} (op : opOf w = 0x0) : Decodes w (decodeFamily0 w) := by
  unfold decodeFamily0
  split
  · exact .cls op ‹_›
  · exact .ret op ‹_›
  · exact .nop ((unmapped_iff w).2 (.inl ⟨op, by simp_all⟩))

theorem decodes_family8 {w : Word} (op : opOf w = 0x8) : Decodes w (decodeFamily8 w) := by
  have hlt := (nOf w).isLt
  unfold decodeFamily8
  split
  · exact .ldReg op ‹_›
  · exact .orReg op ‹_›
  · exact .andReg op ‹_›
  · exact .xorReg op ‹_›
  · exact .addReg op ‹_›
  · exact .subReg op ‹_›
  · exact .shr op ‹_›
  · exact .subnReg op ‹_›
  · exact .shl op ‹_›
  · exact .nop ((unmapped_iff w).2 (.inr (.inl ⟨op, by simp only [imp_false, List.mem_cons] at *; omega⟩)))

theorem decodes_familyE {w : Word} (op : opOf w = 0xE) : Decodes w (decodeFamilyE w) := by
  unfold decodeFamilyE
  split
  · exact .sknp op ‹_›
  · exact .skp op ‹_›
  · exact .nop ((unmapped_iff w).2 (.inr (.inr (.inl ⟨op, by simp_all⟩))))

theorem decodes_familyF {w : Word} (op : opOf w = 0xF) : Decodes w (decodeFamilyF w) := by
  unfold decodeFamilyF
  split
  · exact .ldVxDT op ‹_›
  · exact .ldVxKey op ‹_›
  · exact .ldDT op ‹_›
  · exact .ldST op ‹_›
  · exact .addI op ‹_›
  · exact .ldF op ‹_›
  · exact .ldB op ‹_›
  · exact .storeRegs op ‹_›
  · exact .loadRegs op ‹_›
  · exact .nop ((unmapped_iff w).2 (.inr (.inr (.inr ⟨op, by simp_all⟩))))

/-- All that `decodeWord` can give. -/
theorem decodeWord_decodes (w : Word) : Decodes w (decodeWord w) := by
  have hlt := opOf_lt w
  unfold decodeWord
  split
  · exact decodes_family0 ‹_›
  · exact .jp ‹_›
  · exact .call ‹_›
  · exact .seImm ‹_›
  · exact .sneImm ‹_›
  · exact .seReg ‹_›
  · exact .ldImm ‹_›
  · exact .addImm ‹_›
  · exact decodes_family8 ‹_›
  · exact .sneReg ‹_›
  · exact .ldI ‹_›
  · exact .jpV0 ‹_›
  · exact .rnd ‹_›
  · exact .drw ‹_›
  · exact decodes_familyE ‹_›
  · exact decodes_familyF (by simp only [imp_false] at *; omega)

theorem Decodes.wellFormed {w : Word} {i : Instr} (h : Decodes w i) : i.wellFormed = true := by
  cases h with
  | nop noRow => exact noRow
  | _ => rfl

theorem decodeWord_wellFormed (w : Word) : (decodeWord w).wellFormed = true := (decodeWord_decodes w).wellFormed

/-- A mapped instruction's key is not in R67's table. -/
theorem Decodes.eq_nop {w : Word} {i : Instr} (h : Decodes w i) (hu : unmapped w = true) : i = .nop w := by
  rw [unmapped_iff] at hu
  cases h with
  | nop => rfl
  | _ => simp_all

theorem decodeWord_of_unmapped {w : Word} (h : unmapped w = true) : decodeWord w = .nop w :=
  (decodeWord_decodes w).eq_nop h

theorem Decodes.mnemonic_eq_nop_iff {w : Word} {i : Instr} (hd : Decodes w i) :
    i.mnemonic = "NOP" ↔ unmapped w = true := by
  constructor
  · cases hd with
    | nop noRow => exact fun _ => noRow
    | _ => simp [Instr.mnemonic]
  · intro hu
    rw [hd.eq_nop hu]
    rfl

/-! ### The instruction of a canonical word -/

/-- By the formats of R62: the fields of a format are the key and the operands the decoder reads back. -/
theorem decodeWord_encode {i : Instr} (h : i.wellFormed = true) : decodeWord (encode i) = i := by
  cases i with
  | cls | ret => rfl
  | jp nnn | call nnn | ldI nnn | jpV0 nnn => simp [encode, decodeWord, opOf_formatNNN, nnnOf_formatNNN]
  | seImm x kk | sneImm x kk | ldImm x kk | addImm x kk | rnd x kk =>
    simp [encode, decodeWord, opOf_formatXKK, xOf_formatXKK, kkOf_formatXKK]
  | seReg x y | sneReg x y => simp [encode, decodeWord, opOf_formatXYN, xOf_formatXYN, yOf_formatXYN]
  | drw x y n =>
    simp [encode, decodeWord, opOf_formatXYN, xOf_formatXYN, yOf_formatXYN, nOf_formatXYN, Fin.ext_iff]
  | ldReg x y | orReg x y | andReg x y | xorReg x y | addReg x y | subReg x y | shr x y | subnReg x y | shl x y =>
    simp [encode, decodeWord, decodeFamily8, opOf_formatXYN, xOf_formatXYN, yOf_formatXYN, nOf_formatXYN]
  | skp x | sknp x => simp [encode, decodeWord, decodeFamilyE, opOf_formatXSS, xOf_formatXSS, nOf_formatXSS]
  | ldVxDT x | ldDT x | ldST x | ldVxKey x | addI x | ldF x | ldB x | storeRegs x | loadRegs x =>
    simp [encode, decodeWord, decodeFamilyF, opOf_formatXSS, xOf_formatXSS, kkOf_formatXSS]
  | nop w => exact decodeWord_of_unmapped h

/-- Settles O1: `decodeWord_encode`, and the two bytes of a word join to the word. -/
theorem decodeOfEncodeGivesTheInstruction : Obligations.DecodeOfEncodeGivesTheInstruction := fun i rest h =>
  have hi := decodeWord_encode h
  ⟨hi, by rw [encodeBytes, decodeBytes_bytesOfWord, hi]⟩

/-! ### The canonical word of what a word decodes to -/

/-- The formats of R62 put the fields of a word back. -/
theorem formatNNN_fields {w : Word} {op : Nat} (hop : opOf w = op) : formatNNN op (nnnOf w) = w := by
  subst hop
  apply BitVec.eq_of_toNat_eq
  rw [formatNNN_toNat _ (opOf_lt w), nnnOf_toNat, opOf_eq]
  omega

theorem formatXKK_fields {w : Word} {op : Nat} (hop : opOf w = op) : formatXKK op (xOf w) (kkOf w) = w := by
  subst hop
  apply BitVec.eq_of_toNat_eq
  rw [formatXKK_toNat _ (opOf_lt w), xOf_val, kkOf_toNat, opOf_eq]
  omega

theorem formatXYN_fields {w : Word} {op n : Nat} (hop : opOf w = op) (hn : (nOf w).val = n) :
    formatXYN op (xOf w) (yOf w) n = w := by
  subst hop hn
  apply BitVec.eq_of_toNat_eq
  rw [formatXYN_toNat _ (opOf_lt w) _ _ _ (nOf w).isLt, xOf_val, yOf_val, nOf_val, opOf_eq]
  omega

theorem formatXSS_fields {w : Word} {op sub : Nat} (hop : opOf w = op) (hsub : (kkOf w).toNat = sub) :
    formatXSS op (xOf w) sub = w := by
  subst hsub
  rw [formatXSS, BitVec.ofNat_toNat, BitVec.setWidth_eq, formatXKK_fields hop]

/-- Outside R68's aliases no bit is lost: a bit that is neither key nor operand has its canonical value. -/
theorem Decodes.encode_eq {w : Word} {i : Instr} (hd : Decodes w i) (h : isAlias w = false) : encode i = w := by
  cases hd with
  | cls op n => exact (by simpa [isAlias, op, n] using h : w = 0x00E0).symm
  | ret op n => exact (by simpa [isAlias, op, n] using h : w = 0x00EE).symm
  | jp op | call op | ldI op | jpV0 op => exact formatNNN_fields op
  | seImm op | sneImm op | ldImm op | addImm op | rnd op => exact formatXKK_fields op
  | seReg op | sneReg op => exact formatXYN_fields op (by simpa [isAlias, op] using h)
  | ldReg op n | orReg op n | andReg op n | xorReg op n | addReg op n | subReg op n | shr op n | subnReg op n
  | shl op n => exact formatXYN_fields op n
  | drw op => exact formatXYN_fields op rfl
  | skp op n =>
    have hy : (yOf w).val = 0x9 := by simpa [isAlias, op, n] using h
    exact formatXSS_fields op (by rw [kkOf_toNat_eq, hy, n])
  | sknp op n =>
    have hy : (yOf w).val = 0xA := by simpa [isAlias, op, n] using h
    exact formatXSS_fields op (by rw [kkOf_toNat_eq, hy, n])
  | ldVxDT op kk | ldDT op kk | ldST op kk | ldVxKey op kk | addI op kk | ldF op kk | ldB op kk | storeRegs op kk
  | loadRegs op kk => exact formatXSS_fields op kk
  | nop => rfl

/-- Settles O2: both halves hold in every case of the dispatch. -/
theorem encodeOfDecodeGivesTheWord : Obligations.EncodeOfDecodeGivesTheWord := fun w =>
  ⟨decodeWord_wellFormed w, (decodeWord_decodes w).encode_eq⟩

/-! ### The dispatch key of R64 -/

/-- The words agree on what the two levels of R64 examine: the leading nibble, and in families 0, 8 and E the low 4 bits,
in family F the low 8. `mnemonic_eq_of_sameKey` and `selects_iff_sameKey` tie it to the decoder and to the map. -/
structure SameKey (v w : Word) : Prop where
  op : opOf v = opOf w
  low4 : opOf w ∈ [0x0, 0x8, 0xE] → (nOf v).val = (nOf w).val
  low8 : opOf w = 0xF → (kkOf v).toNat = (kkOf w).toNat

theorem SameKey.refl (w : Word) : SameKey w w := ⟨rfl, fun _ => rfl, fun _ => rfl⟩

theorem SameKey.trans {u v w : Word} (huv : SameKey u v) (hvw : SameKey v w) : SameKey u w where
  op := huv.op.trans hvw.op
  low4 h := (huv.low4 (hvw.op ▸ h)).trans (hvw.low4 h)
  low8 h := (huv.low8 (hvw.op ▸ h)).trans (hvw.low8 h)

theorem SameKey.unmapped {v w : Word} (h : SameKey v w) (hw : unmapped w = true) : unmapped v = true := by
  rw [unmapped_iff] at *
  obtain ⟨op, n⟩ | ⟨op, n⟩ | ⟨op, n⟩ | ⟨op, kk⟩ := hw
  · exact .inl ⟨h.op.trans op, by rwa [h.low4 (by simp [op])]⟩
  · exact .inr (.inl ⟨h.op.trans op, by rwa [h.low4 (by simp [op])]⟩)
  · exact .inr (.inr (.inl ⟨h.op.trans op, by rwa [h.low4 (by simp [op])]⟩))
  · exact .inr (.inr (.inr ⟨h.op.trans op, by rwa [h.low8 op]⟩))

theorem Decodes.mnemonic_of_sameKey {v w : Word} {i : Instr} (hd : Decodes w i) (h : SameKey v w) :
    (decodeWord v).mnemonic = i.mnemonic := by
  cases hd with
  | cls op n | ret op n => simp [decodeWord, decodeFamily0, h.op, h.low4, op, n, Instr.mnemonic]
  | ldReg op n | orReg op n | andReg op n | xorReg op n | addReg op n | subReg op n | shr op n | subnReg op n
  | shl op n => simp [decodeWord, decodeFamily8, h.op, h.low4, op, n, Instr.mnemonic]
  | skp op n | sknp op n => simp [decodeWord, decodeFamilyE, h.op, h.low4, op, n, Instr.mnemonic]
  | ldVxDT op kk | ldDT op kk | ldST op kk | ldVxKey op kk | addI op kk | ldF op kk | ldB op kk | storeRegs op kk
  | loadRegs op kk => simp [decodeWord, decodeFamilyF, h.op, h.low8, op, kk, Instr.mnemonic]
  | nop noRow => rw [decodeWord_of_unmapped (h.unmapped noRow)]; rfl
  | jp op | call op | seImm op | sneImm op | seReg op | sneReg op | ldImm op | addImm op | ldI op | jpV0 op | rnd op
  | drw op => simp [decodeWord, h.op, op, Instr.mnemonic]

/-- The mnemonic depends on the key alone. -/
theorem mnemonic_eq_of_sameKey {v w : Word} (h : SameKey v w) : (decodeWord v).mnemonic = (decodeWord w).mnemonic :=
  (decodeWord_decodes w).mnemonic_of_sameKey h

/-- R68: the six instructions that have aliases; the canonical word differs in bits outside key and operands only. -/
theorem Decodes.encode_of_isAlias {w : Word} {i : Instr} (hd : Decodes w i) (h : isAlias w = true) :
    isAlias (encode i) = false ∧ SameKey w (encode i) ∧ (opOf w ≠ 0x0 → xOf (encode i) = xOf w) := by
  cases hd with
  | cls op n | ret op n => exact ⟨rfl, ⟨op, fun _ => n, (absurd · (by decide))⟩, absurd op⟩
  | seReg op | sneReg op =>
    refine ⟨?_, ⟨?_, ?_, ?_⟩, ?_⟩ <;> simp [encode, isAlias, opOf_formatXYN, xOf_formatXYN, nOf_formatXYN, op]
  | skp op n | sknp op n =>
    refine ⟨?_, ⟨?_, ?_, ?_⟩, ?_⟩ <;>
      simp [encode, isAlias, opOf_formatXSS, xOf_formatXSS, yOf_formatXSS, nOf_formatXSS, op, n]
  | nop noRow => rw [isAlias_of_unmapped noRow] at h; cases h
  | _ => simp_all [isAlias]

theorem sameKey_encode_decodeWord (w : Word) : SameKey w (encode (decodeWord w)) := by
  cases h : isAlias w with
  | true =>
    obtain ⟨-, hkey, -⟩ := (decodeWord_decodes w).encode_of_isAlias h
    exact hkey
  | false => rw [(decodeWord_decodes w).encode_eq h]; exact .refl w

/-- Settles O3: the canonical word is none of R68's aliases, so it differs, and decoding it gives the instruction back. -/
theorem aliasWordsRunAsTheirCanonicalWord : Obligations.AliasWordsRunAsTheirCanonicalWord := by
  intro w h
  obtain ⟨hcanon, hkey, hx⟩ := (decodeWord_decodes w).encode_of_isAlias h
  refine ⟨fun e => ?_, hcanon, decodeWord_encode (decodeWord_wellFormed w), hkey.op.symm, hx⟩
  rw [e, h] at hcanon
  cases hcanon

/-! ### The rows of R66 -/

/-- Every row examines the bits of its own key, by the three masks of R66. -/
theorem opcodeTable_masks : ∀ r ∈ opcodeTable,
    (r.mask = 0xF000 ∧ r.key = BitVec.ofNat 16 (opOf r.key * 4096) ∧
        opOf r.key ∉ [0x0, 0x8, 0xE] ∧ opOf r.key ≠ 0xF) ∨
      (r.mask = 0xF00F ∧ r.key = BitVec.ofNat 16 (opOf r.key * 4096 + (nOf r.key).val) ∧
        opOf r.key ∈ [0x0, 0x8, 0xE]) ∨
      (r.mask = 0xF0FF ∧ r.key = BitVec.ofNat 16 (opOf r.key * 4096 + (kkOf r.key).toNat) ∧ opOf r.key = 0xF) := by
  decide

/-- The key of a row, taken as a word, decodes to the row. -/
theorem opcodeTable_mnemonics :
    ∀ r ∈ opcodeTable, (decodeWord r.key).mnemonic = r.mnemonic ∧ r.mnemonic ≠ "NOP" := by
  decide

theorem opcodeTable_mnemonic_nodup : (opcodeTable.map (·.mnemonic)).Nodup := by
  decide

theorem eq_of_mnemonic_eq {r r' : OpcodeRow} (hr : r ∈ opcodeTable) (hr' : r' ∈ opcodeTable)
    (h : r.mnemonic = r'.mnemonic) : r = r' :=
  List.inj_on_of_nodup_map opcodeTable_mnemonic_nodup hr hr' h

/-- A row selects the words that have the key of the row. -/
theorem selects_iff_sameKey {r : OpcodeRow} (hr : r ∈ opcodeTable) (w : Word) :
    r.selects w = true ↔ SameKey w r.key := by
  have hlt := opOf_lt r.key
  rw [OpcodeRow.selects, beq_iff_eq]
  obtain ⟨hm, hk, h4, h8⟩ | ⟨hm, hk, hop⟩ | ⟨hm, hk, hop⟩ := opcodeTable_masks r hr
  · rw [hm, hk, and_F000_eq_iff w _ hlt, ← hk]
    exact ⟨fun h => ⟨h, (absurd · h4), (absurd · h8)⟩, SameKey.op⟩
  · rw [hm, hk, and_F00F_eq_iff w _ _ hlt (nOf r.key).isLt, ← hk]
    exact ⟨fun ⟨op, n⟩ => ⟨op, fun _ => n, fun hF => by simp [hF] at hop⟩, fun h => ⟨h.op, h.low4 hop⟩⟩
  · rw [hm, hk, and_F0FF_eq_iff w _ _ hlt (kkOf r.key).isLt, ← hk]
    exact ⟨fun ⟨op, kk⟩ => ⟨op, by simp [hop], fun _ => kk⟩, fun h => ⟨h.op, h.low8 hop⟩⟩

/-- The family EncodeKey, over all instructions. -/
theorem encodeKey (i : Instr) : Laws.EncodeKey.Statement i := by
  open Laws.EncodeKey in
  cases i
  exacts [cls, ret, jp _, call _, seImm _ _, sneImm _ _, seReg _ _, sneReg _ _, ldImm _ _, addImm _ _, ldReg _ _,
    orReg _ _, andReg _ _, xorReg _ _, addReg _ _, subReg _ _, shr _ _, subnReg _ _, shl _ _, ldI _, jpV0 _, rnd _ _,
    drw _ _ _, skp _, sknp _, ldVxDT _, ldDT _, ldST _, ldVxKey _, addI _, ldF _, ldB _, storeRegs _, loadRegs _, nop _]

/-- The row of the canonical word selects the word itself, for the two have the same key. -/
theorem exists_row_or_nop (w : Word) :
    (∃ r ∈ opcodeTable, r.mnemonic = (decodeWord w).mnemonic ∧ r.selects w = true) ∨
      (decodeWord w).mnemonic = "NOP" := by
  obtain ⟨r, hr, hm, hs⟩ | ⟨hm, -⟩ := encodeKey (decodeWord w) (decodeWord_wellFormed w)
  · have hkey := (sameKey_encode_decodeWord w).trans ((selects_iff_sameKey hr _).1 hs)
    exact .inl ⟨r, hr, hm, (selects_iff_sameKey hr w).2 hkey⟩
  · exact .inr hm

theorem selects_iff_mnemonic {r : OpcodeRow} (hr : r ∈ opcodeTable) (w : Word) :
    r.selects w = true ↔ (decodeWord w).mnemonic = r.mnemonic := by
  obtain ⟨hkey, hnop⟩ := opcodeTable_mnemonics r hr
  constructor
  · intro hs
    exact (mnemonic_eq_of_sameKey ((selects_iff_sameKey hr w).1 hs)).trans hkey
  · intro hm
    obtain ⟨r', hr', hm', hs⟩ | hw := exists_row_or_nop w
    · rwa [← eq_of_mnemonic_eq hr' hr (hm'.trans hm)]
    · exact absurd (hm.symm.trans hw) hnop

/-- Settles O4: two rows that select a word have the mnemonic it decodes to, and no two rows share a mnemonic. -/
theorem decodeSelectsTheRowOfTheOpcodeMap : Obligations.DecodeSelectsTheRowOfTheOpcodeMap := by
  refine ⟨rfl, fun w => ⟨fun r hr => selects_iff_mnemonic hr w, fun r hr r' hr' hs hs' => ?_⟩⟩
  have hm := (selects_iff_mnemonic hr w).1 hs
  have hm' := (selects_iff_mnemonic hr' w).1 hs'
  exact eq_of_mnemonic_eq hr hr' (hm.symm.trans hm')

/-- Settles O5: the unmapped words are those named `NOP`, which is the name of no row. -/
theorem unmappedWordsAreThoseOfNoRow : Obligations.UnmappedWordsAreThoseOfNoRow := by
  intro w
  have hnop := (decodeWord_decodes w).mnemonic_eq_nop_iff
  refine ⟨⟨decodeWord_of_unmapped, fun h => ?_⟩, ⟨fun hu r hr => ?_, fun hno => ?_⟩, ?_⟩
  · rw [← hnop, h]
    rfl
  · have hne := (opcodeTable_mnemonics r hr).2
    rw [Bool.eq_false_iff, ne_eq, selects_iff_mnemonic hr, hnop.2 hu]
    exact hne.symm
  · obtain ⟨r, hr, -, hs⟩ | hm := exists_row_or_nop w
    · exact absurd hs (by simp [hno r hr])
    · exact hnop.1 hm
  · rw [ne_eq, hnop, Bool.not_eq_true]

/-! ### The spec's words -/

/-- Settles O6, by running the decoder on the thirteen words. -/
theorem writtenOutWordsDecode : Obligations.WrittenOutWordsDecode := by
  unfold Obligations.WrittenOutWordsDecode
  decide

end Sys2Proof
end

section
/-! PROOFS. The cycle (40_cycle.md). A fetched word leaves one way to a next state, its behaviour and then the tick, and a
behaviour leaves a timer alone unless it is the one that writes it. -/

namespace Sys2Proof.Machine

/-! ### The cycle taken apart (R80) -/

/-- Settles O7: the two bytes are the fetched word, and a fetched word would give the byte that cannot be read. -/
theorem stepRunsTheDecodedInstruction : Obligations.StepRunsTheDecodedInstruction := by
  refine ⟨fun s hi lo i hhi hlo hdec => ?_, fun s hunread => ?_⟩
  · rw [decodeBytes_cons_cons] at hdec
    cases hdec
    rw [step_of_fetch (State.fetch_of_memRead hhi hlo)]
    rfl
  · refine (step_fault_iff s _).2 (.inl ⟨Option.eq_none_iff_forall_ne_some.2 fun w hf => ?_, rfl⟩)
    obtain ⟨hhi, hlo⟩ := (fetchReadsTheHighByteFirst s w).1 hf
    simp [hhi, hlo] at hunread

/-- The next state of a cycle that fetched `w` is the tick of what the behaviour of `w` left. -/
theorem exec_of_step_next {s t : State} {w : Word} (hf : s.fetch = some w) (hst : step s = .next t) :
    ∃ u, exec (decodeWord w) s.advance = .next u ∧ t = u.tick := by
  obtain ⟨w', u, hf', hex, ht⟩ := (step_next_iff s t).1 hst
  obtain rfl : w = w' := Option.some.inj (hf.symm.trans hf')
  exact ⟨u, hex, ht⟩

/-! ### The timers (R84) -/

section Timers

variable {i : Instr} {s t : State} (h : exec i s = .next t)
include h

theorem exec_dt_of_ne_ldDT (hi : ∀ x, i ≠ .ldDT x) : t.dt = s.dt := by
  by_contra hne
  obtain ⟨x, rfl⟩ := dt_writers h hne
  exact hi x rfl

theorem exec_st_of_ne_ldST (hi : ∀ x, i ≠ .ldST x) : t.st = s.st := by
  by_contra hne
  obtain ⟨x, rfl⟩ := st_writers h hne
  exact hi x rfl

end Timers

/-- Settles O13: the tick takes 1 from what the behaviour left in each timer, and only `Fx15` and `Fx18` leave there
something else than they found. -/
theorem timersTickInEverySuccessfulCycle : Obligations.TimersTickInEverySuccessfulCycle := by
  intro s t w hf hst
  obtain ⟨u, hex, rfl⟩ := exec_of_step_next hf hst
  rw [State.tick_dt, State.tick_st, tickTimer_toNat, tickTimer_toNat]
  refine ⟨fun hi => ?_, fun x hi => ?_, fun hi => ?_, fun x hi => ?_, fun x hi => ?_⟩
  · rw [exec_dt_of_ne_ldDT hex hi, State.advance_dt]
  · rw [hi] at hex
    cases hex
    rfl
  · rw [exec_st_of_ne_ldST hex hi, State.advance_st]
  · rw [hi] at hex
    cases hex
    rfl
  · rw [hi] at hex
    cases hex
    exact s.advance.getV_setV_self x s.dt

/-! ### The no-operation (R86) -/

theorem step_of_unmapped {s : State} {w : Word} (hf : s.fetch = some w) (hu : unmapped w = true) :
    step s = .next s.advance.tick := by
  rw [step_of_fetch hf, decodeWord_of_unmapped hu]
  rfl

/-- Settles O15: an unmapped word decodes to the no-operation, so its cycle is the advance and the tick alone. -/
theorem nopOnlyAdvancesAndTicks : Obligations.NopOnlyAdvancesAndTicks :=
  ⟨fun _ _ => rfl, fun s _ hf hu =>
    ⟨s.advance.tick, step_of_unmapped hf hu, rfl, tickTimer_toNat s.dt, tickTimer_toNat s.st,
      State.memRead_congr rfl rfl, rfl⟩⟩

end Sys2Proof.Machine
end

section
/-! PROOFS. Control transfer (41_flow.md). The jumps and the skips write `PC` alone; a call and a return end as a push and a
pop of the call stack do. -/

namespace Sys2Proof.Machine

/-! ### Jumps and skips write PC alone -/

theorem onlyPc_withPc (s : State) (target : Word) : OnlyPc s { s with pc := target } :=
  ⟨State.memRead_congr rfl rfl, rfl⟩

theorem onlyPc_skipIf (s : State) (c : Bool) : OnlyPc s (s.skipIf c) :=
  ⟨State.memRead_congr (s.skipIf_cfg c) (s.skipIf_mem c), skipIf_frame rfl⟩

/-- The skip of `3xkk` and `5xy0` (R94, R96). -/
theorem skipIf_beq_pc (s : State) (a b : Byte) : (s.skipIf (a == b)).pc = if a = b then s.pc + 2 else s.pc := by
  simp only [State.skipIf_pc, beq_iff_eq]

/-- The skip of `4xkk` and `9xy0` (R95, R97). -/
theorem skipIf_bne_pc (s : State) (a b : Byte) : (s.skipIf (a != b)).pc = if a = b then s.pc else s.pc + 2 := by
  simp only [State.skipIf_pc, bne_iff_ne, ne_eq, ite_not]

/-- Settles O16: both jumps write their target into `PC`, and the sum of `Bnnn` does not wrap. -/
theorem jumpsSetThePcAlone : Obligations.JumpsSetThePcAlone := fun nnn s =>
  ⟨⟨_, rfl, zextAddr_toNat nnn, onlyPc_withPc s _⟩, ⟨_, rfl, jpV0_target_toNat (s.getV 0) nnn, onlyPc_withPc s _⟩⟩

/-- Settles O20: each skip is `skipIf` on its condition, an equality for two of them and its negation for the others. -/
theorem skipsAddTwoOnTheirCondition : Obligations.SkipsAddTwoOnTheirCondition := fun x y kk s =>
  ⟨⟨_, rfl, skipIf_beq_pc s (s.getV x) kk, onlyPc_skipIf s _⟩,
    ⟨_, rfl, skipIf_bne_pc s (s.getV x) kk, onlyPc_skipIf s _⟩,
    ⟨_, rfl, skipIf_beq_pc s (s.getV x) (s.getV y), onlyPc_skipIf s _⟩,
    ⟨_, rfl, skipIf_bne_pc s (s.getV x) (s.getV y), onlyPc_skipIf s _⟩⟩

/-! ### Calls and returns (10_state.md R26) -/

/-- Settles O17: the push below capacity writes slot `SP`, which is one of the `STACK_DEPTH` slots, and no other. -/
theorem callPushesTheReturnAddress : Obligations.CallPushesTheReturnAddress := by
  intro nnn s hslots
  obtain ⟨room, e⟩ | ⟨full, e⟩ := pushAndJump_cases s.pc (zextAddr nnn) s
  · have hslot {t : State} (ht : t.stack = s.stack.set s.sp s.pc) (k : Nat) :
        t.slot k = if k = s.sp then s.pc else s.slot k := s.slot_set t s.sp k s.pc ht (hslots ▸ room)
    exact ⟨fun _ => ⟨_, e, zextAddr_toNat nnn, rfl, (hslot rfl s.sp).trans (if_pos rfl),
      fun k hk => (hslot rfl k).trans (if_neg hk), State.memRead_congr rfl rfl, rfl⟩,
      fun hfull => absurd hfull (Nat.ne_of_lt room)⟩
  · exact ⟨fun room => absurd room (Nat.not_lt.2 full), fun _ => e⟩

/-- Settles O18: the pop uncounts the last entry and goes to the slot that held it. -/
theorem returnPopsTheReturnAddress : Obligations.ReturnPopsTheReturnAddress := by
  intro s
  obtain ⟨live, e⟩ | ⟨hempty, e⟩ := popToPc_cases s
  · exact ⟨fun _ => ⟨_, e, Nat.sub_one_add_one live, rfl, State.memRead_congr rfl rfl, rfl⟩,
      fun hempty => absurd hempty live⟩
  · exact ⟨fun live => absurd hempty live, fun _ => e⟩

end Sys2Proof.Machine
end

section
/-! PROOFS. Register load, arithmetic, logic, shifts and random (42_alu.md). Every behaviour here is one write of a register,
in five of them followed by the write of `VF`; what is left to each is the arithmetic of its byte and of its flag. -/

namespace Sys2Proof.Machine

/-! ### What the two writes leave, and what they leave alone (R99, R100) -/

theorem State.getV_setVFlag_flag (s : State) (x : Reg) (b : Byte) (f : Bool) :
    (s.setVFlag x b f).getV 15 = flagByte f :=
  State.getV_setV_self _ flagReg _

/-- The result stands unless the flag overwrote it (decision D13). -/
theorem State.getV_setVFlag_result (s : State) {x : Reg} (b : Byte) (f : Bool) (hx : x ≠ 15) :
    (s.setVFlag x b f).getV x = b := by
  rw [State.getV_setVFlag, if_neg (show x ≠ flagReg from hx), if_pos rfl]

theorem onlyRegs_setV (s : State) (x : Reg) (b : Byte) : OnlyRegs [x] s (s.setV x b) :=
  ⟨fun _ hr => State.getV_setV_of_ne s b (List.ne_of_not_mem_cons hr), State.memRead_congr rfl rfl, rfl⟩

theorem onlyRegs_setVFlag (s : State) (x : Reg) (b : Byte) (f : Bool) : OnlyRegs [x, 15] s (s.setVFlag x b f) := by
  refine ⟨fun r hr => ?_, State.memRead_congr rfl rfl, rfl⟩
  obtain ⟨hx, hflag⟩ : r ≠ x ∧ r ≠ flagReg := by simpa [flagReg] using hr
  rw [State.getV_setVFlag, if_neg hflag, if_neg hx]

/-! ### The arithmetic of the bytes and of the flags (R113) -/

theorem flagByte_decide (p : Prop) [Decidable p] : flagByte (decide p) = if p then 1 else 0 := by
  simp only [flagByte, decide_eq_true_eq]

theorem flagByte_toNat (b : Bool) : (flagByte b).toNat = b.toNat := by cases b <;> rfl

/-- The bit `8xy6` shifts out (R109). -/
theorem flagByte_lowBit_toNat (a : Byte) : (flagByte (lowBit a)).toNat = a.toNat % 2 := by
  rw [flagByte_toNat, lowBit, BitVec.getLsbD, Nat.toNat_testBit, Nat.pow_zero, Nat.div_one]

/-- The bit `8xyE` shifts out (R111). -/
theorem flagByte_highBit_toNat (a : Byte) : (flagByte (highBit a)).toNat = a.toNat / 128 := by
  have ha := a.isLt
  rw [flagByte_toNat, highBit, BitVec.getLsbD, Nat.toNat_testBit]
  omega

/-- A byte subtraction is the integer one modulo 256 (R108, R110). -/
theorem toNat_sub_byte (a b : Byte) : ((a - b).toNat : Int) = (a.toNat - b.toNat : Int) % 256 := by
  have hb := b.isLt
  rw [BitVec.toNat_sub]
  omega

theorem toNat_shiftRight_one (a : Byte) : (a >>> 1).toNat = a.toNat / 2 := by
  rw [BitVec.toNat_ushiftRight, Nat.shiftRight_eq_div_pow, Nat.pow_one]

theorem toNat_shiftLeft_one (a : Byte) : (a <<< 1).toNat = 2 * a.toNat % 256 := by
  rw [BitVec.toNat_shiftLeft, Nat.shiftLeft_eq, Nat.pow_one, Nat.mul_comm]

/-! ### Loads, add immediate and logic (R101 to R106) -/

/-- Settles O21: each is one write of `Vx`, and a byte addition is the one of naturals modulo 256. -/
theorem loadsAndAddImmediateWriteTheirRegister : Obligations.LoadsAndAddImmediateWriteTheirRegister := fun x y kk s =>
  ⟨⟨_, rfl, s.getV_setV_self x kk, onlyRegs_setV s x _⟩,
    ⟨_, rfl, by rw [State.getV_setV_self, BitVec.toNat_add], onlyRegs_setV s x _⟩,
    ⟨_, rfl, s.getV_setV_self x (s.getV y), onlyRegs_setV s x _⟩⟩

/-- Settles O22: each is one write of `Vx`, and the byte operations work bit by bit. -/
theorem logicWritesItsRegisterAndNoFlag : Obligations.LogicWritesItsRegisterAndNoFlag := fun x y s =>
  ⟨⟨_, rfl, fun _ _ => by rw [State.getV_setV_self, BitVec.getLsbD_or], onlyRegs_setV s x _⟩,
    ⟨_, rfl, fun _ _ => by rw [State.getV_setV_self, BitVec.getLsbD_and], onlyRegs_setV s x _⟩,
    ⟨_, rfl, fun _ _ => by rw [State.getV_setV_self, BitVec.getLsbD_xor], onlyRegs_setV s x _⟩⟩

/-! ### Addition, subtractions and shifts (R107 to R111) -/

/-- Settles O23: the flag is written last, and it is the carry of the two old values. -/
theorem addSetsTheCarry : Obligations.AddSetsTheCarry := fun x y s =>
  ⟨_, rfl, (s.getV_setVFlag_flag x _ _).trans (flagByte_decide _),
    fun hx => by rw [State.getV_setVFlag_result s _ _ hx, BitVec.toNat_add], onlyRegs_setVFlag s x _ _⟩

/-- Settles O24: the flag is written last, and it is the strict comparison of the two old values. -/
theorem subtractionsSetTheStrictBorrow : Obligations.SubtractionsSetTheStrictBorrow := fun x y s =>
  ⟨⟨_, rfl, (s.getV_setVFlag_flag x _ _).trans (flagByte_decide _),
      fun hx => by rw [State.getV_setVFlag_result s _ _ hx, toNat_sub_byte], onlyRegs_setVFlag s x _ _⟩,
    ⟨_, rfl, (s.getV_setVFlag_flag x _ _).trans (flagByte_decide _),
      fun hx => by rw [State.getV_setVFlag_result s _ _ hx, toNat_sub_byte], onlyRegs_setVFlag s x _ _⟩⟩

/-- Settles O25: the flag is written last, and it is the lowest or the highest bit of the old value. -/
theorem shiftsMoveOneBitIntoTheFlag : Obligations.ShiftsMoveOneBitIntoTheFlag := fun x _ s =>
  ⟨⟨_, rfl, by rw [State.getV_setVFlag_flag, flagByte_lowBit_toNat],
      fun hx => by rw [State.getV_setVFlag_result s _ _ hx, toNat_shiftRight_one], onlyRegs_setVFlag s x _ _⟩,
    ⟨_, rfl, by rw [State.getV_setVFlag_flag, flagByte_highBit_toNat],
      fun hx => by rw [State.getV_setVFlag_result s _ _ hx, toNat_shiftLeft_one], onlyRegs_setVFlag s x _ _⟩⟩

/-! ### Random (R112) -/

/-- Settles O26: one write of `Vx` beside the counter; the mask clears every bit not set in `kk`. -/
theorem randomByteIsMasked : Obligations.RandomByteIsMasked := by
  intro x kk s
  have hVx : (s.setV x (Config.randomByte s.draws &&& kk)).getV x = Config.randomByte s.draws &&& kk :=
    s.getV_setV_self x _
  have hmask (k : Nat) (hk : kk.getLsbD k = false) : (Config.randomByte s.draws &&& kk).getLsbD k = false := by
    rw [BitVec.getLsbD_and, hk, Bool.and_false]
  exact ⟨_, rfl, hVx, fun k hk => (congrArg (·.getLsbD k) hVx).trans (hmask k hk), rfl, fun _ hr => s.getV_setV_of_ne _ hr,
    State.memRead_congr rfl rfl, rfl⟩

end Sys2Proof.Machine
end

section
/-! PROOFS. Index register and memory (43_index_memory.md). The instructions that write `I` leave everything else; a store
in range is one `pokeList`, whose bytes and frame are known, and a load in range is one `setRegsFrom`. -/

namespace Sys2Proof.Machine

/-! ### Writes of I (R115 to R117) -/

theorem onlyIndex_withIndex (s : State) (a : Word) : OnlyIndex s { s with i := a } :=
  ⟨State.memRead_congr rfl rfl, rfl⟩

theorem zextByte_toNat (b : Byte) : (zextByte b).toNat = b.toNat :=
  BitVec.toNat_setWidth_of_le (by decide)

/-- Settles O27: `Annn` writes its operand into `I`, and the sum of `Fx1E` is the one of 16-bit words. -/
theorem indexLoadAndAddWriteTheIndexAlone : Obligations.IndexLoadAndAddWriteTheIndexAlone :=
  ⟨fun nnn s => ⟨_, rfl, zextAddr_toNat nnn, onlyIndex_withIndex s _⟩,
    fun x s => ⟨_, rfl, by rw [BitVec.toNat_add, zextByte_toNat], onlyIndex_withIndex s _⟩⟩

/-- A font byte of a fresh machine, its address written out (20_memory.md R43). -/
theorem construct_memRead_font {cfg : Config} (h : cfg.valid = true) {k : Nat} (hk : k < fontSize) :
    (State.construct cfg).memRead (cfg.fontBase + k) = cfg.fontData[k]? := by
  have hfont := font_below_program h
  rw [construct_memRead cfg (by omega), Memory.unlisted_font cfg k hk, Vector.getElem?_eq_getElem hk]

/-- Settles O28: the address of a legal glyph does not wrap, so its bytes are font bytes of the fresh machine. -/
theorem glyphAddressSelectsTheGlyph : Obligations.GlyphAddressSelectsTheGlyph := by
  intro x s
  have haddr : (s.glyphAddr x).toNat = (s.cfg.fontBase + 5 * (s.getV x).toNat) % 65536 := BitVec.toNat_ofNat _ _
  refine ⟨_, rfl, haddr, onlyIndex_withIndex s _, fun hcfg hdigit r hr => ?_⟩
  have hfont := font_below_program hcfg
  have hnowrap : (s.glyphAddr x).toNat + r = s.cfg.fontBase + (5 * (s.getV x).toNat + r) := by omega
  exact (congrArg _ hnowrap).trans (construct_memRead_font hcfg (by rw [fontSize]; omega))

/-! ### Stores from I (R118, R119) -/

theorem onlyMemory_pokeList (s : State) (base : Nat) (bs : List Byte) :
    OnlyMemory base bs.length s (s.pokeList base bs) :=
  ⟨s.memRead_pokeList_outside base bs, s.pokeList_eq base bs⟩

theorem storeSpan_inRange {base : Nat} {bs : List Byte} {s : State} (h : base + bs.length ≤ 4096) :
    storeSpan base bs s = .next (s.pokeList base bs) := by
  obtain ⟨-, e⟩ | ⟨⟨-, hout⟩, -⟩ := storeSpan_cases base bs s
  · exact e
  · exact absurd h (Nat.not_le.2 hout)

theorem storeSpan_outOfRange {base : Nat} {bs : List Byte} {s : State} (hne : bs.length ≠ 0)
    (h : 4096 < base + bs.length) : storeSpan base bs s = .fault .invalidMemoryAccess := by
  obtain ⟨hin, -⟩ | ⟨-, e⟩ := storeSpan_cases base bs s
  · exact absurd (hin.resolve_left hne) (Nat.not_le.2 h)
  · exact e

theorem execStoreRegs_inRange {x : Reg} {s : State} (h : s.i.toNat + x.val ≤ 4095) :
    execStoreRegs x s = .next (s.pokeList s.i.toNat (s.firstRegs x)) :=
  storeSpan_inRange (by rw [State.firstRegs_length]; exact Nat.succ_le_succ h)

theorem execStoreRegs_outOfRange {x : Reg} {s : State} (h : 4095 < s.i.toNat + x.val) :
    execStoreRegs x s = .fault .invalidMemoryAccess :=
  storeSpan_outOfRange (by simp) (by rw [State.firstRegs_length]; exact Nat.succ_lt_succ h)

/-- Settles O30: a store in range writes `V[0]`..`V[x]` and no other byte. -/
theorem registersAreStoredFromTheIndex : Obligations.RegistersAreStoredFromTheIndex := by
  refine fun x s => ⟨fun h => ?_, execStoreRegs_outOfRange⟩
  have hstore := execStoreRegs_inRange h
  exact ⟨_, hstore, fun _ hk => execStoreRegs_memRead hstore hk,
    s.firstRegs_length x ▸ onlyMemory_pokeList s s.i.toNat (s.firstRegs x)⟩

/-- The three digits of a byte, none of which is truncated (R118). -/
theorem decimalDigits_spec (b : Byte) :
    ∃ h d o : Byte, decimalDigits b = [h, d, o] ∧ h.toNat = b.toNat / 100 ∧ d.toNat = b.toNat / 10 % 10 ∧
      o.toNat = b.toNat % 10 := by
  have hb := b.isLt
  refine ⟨_, _, _, rfl, ?_, ?_, ?_⟩ <;> rw [BitVec.toNat_ofNat] <;> omega

/-- Settles O29: the three bytes stored are the digits, which rebuild the byte. -/
theorem decimalDigitsAreStored : Obligations.DecimalDigitsAreStored := by
  intro x s
  obtain ⟨h, d, o, e, hh, hd, ho⟩ := decimalDigits_spec (s.getV x)
  have hexec : exec (.ldB x) s = storeSpan s.i.toNat [h, d, o] s := by rw [← e]; rfl
  refine ⟨fun hin => ?_, fun hout => hexec.trans (storeSpan_outOfRange (by simp) (Nat.add_lt_add_right hout 3))⟩
  have hdigit (k : Nat) (hk : k < 3) := s.memRead_pokeList_inside s.i.toNat [h, d, o] k hk (by omega)
  exact ⟨_, h, d, o, hexec.trans (storeSpan_inRange (Nat.add_le_add_right hin 3)), hdigit 0 (by decide),
    hdigit 1 (by decide), hdigit 2 (by decide), hh, hd, ho, by omega, onlyMemory_pokeList s s.i.toNat [h, d, o]⟩

/-! ### Loads from I (R120) -/

/-- All that `Fx65` does in range: `V[0]`..`V[x]` become the bytes from `I`, and nothing else changes. -/
theorem execLoadRegs_inRange {x : Reg} {s : State} (h : s.i.toNat + x.val ≤ 4095) :
    ∃ t, execLoadRegs x s = .next t ∧ (∀ k : Reg, k ≤ x → s.memRead (s.i.toNat + k.val) = some (t.getV k)) ∧
      (∀ k : Reg, x < k → t.getV k = s.getV k) ∧ SameMemory s t ∧ t = { s with v := t.v } := by
  obtain ⟨-, e⟩ | ⟨⟨-, hout⟩, -⟩ := s.loadSpan_cases s.i.toNat (x.val + 1)
  · refine ⟨_, by rw [execLoadRegs, State.base, e], fun k hk => ?_, fun k hk => ?_,
      State.memRead_congr (s.setRegsFrom_cfg 0 _) (s.setRegsFrom_mem 0 _), s.setRegsFrom_eq 0 _⟩
    · have hkx : k.val < x.val + 1 := Nat.lt_succ_of_le hk
      rw [s.memRead_of_lt (by omega)]
      simp [State.getV_setRegsFrom, List.getD_eq_getElem?_getD, hkx]
    · have hxk : ¬ k.val < x.val + 1 := Nat.not_lt.2 hk
      simp [State.getV_setRegsFrom, hxk]
  · exact absurd hout (by omega)

theorem execLoadRegs_outOfRange {x : Reg} {s : State} (h : 4095 < s.i.toNat + x.val) :
    execLoadRegs x s = .fault .invalidMemoryAccess := by
  obtain ⟨hin, -⟩ | ⟨-, e⟩ := s.loadSpan_cases s.i.toNat (x.val + 1)
  · exact absurd hin (by omega)
  · rw [execLoadRegs, State.base, e, raise]

/-- A completed `Fx55` was in range (R119). -/
theorem inRange_of_execStoreRegs {x : Reg} {s t : State} (h : execStoreRegs x s = .next t) :
    s.i.toNat + x.val ≤ 4095 := by
  by_contra hout
  rw [execStoreRegs_outOfRange (Nat.not_le.1 hout)] at h
  cases h

/-- Settles O31: the load reads the bytes that the store left, which are the registers it stored. -/
theorem registersAreLoadedFromTheIndex : Obligations.RegistersAreLoadedFromTheIndex := by
  refine ⟨fun x s => ⟨execLoadRegs_inRange, execLoadRegs_outOfRange⟩, fun x s t u hstore hi hsame => ?_⟩
  obtain ⟨r, hload, hbytes, -⟩ := execLoadRegs_inRange (x := x) (s := u) (hi ▸ inRange_of_execStoreRegs hstore)
  refine ⟨r, hload, fun k hk => Option.some.inj ?_⟩
  calc some (r.getV k) = u.memRead (s.i.toNat + k.val) := by rw [← hi, hbytes k hk]
    _ = t.memRead (s.i.toNat + k.val) := hsame k hk
    _ = some (s.getV k) := execStoreRegs_memRead hstore hk

end Sys2Proof.Machine
end

section
/-! PROOFS. Display (44_display.md). A draw in range reads its sprite, flips the pixels the sprite covers and then writes the
flag; `Draw.Flips` says what such a draw leaves on the screen and what it reports. -/

namespace Sys2Proof.Machine

/-! ### Clear (R125) -/

/-- Settles O33: the blank screen has every pixel off, and nothing else is written. -/
theorem clearTurnsEveryPixelOff : Obligations.ClearTurnsEveryPixelOff := fun _ =>
  ⟨_, rfl, pixel_blankScreen, fun _ => by rw [framebufferCell, pixel_blankScreen, if_neg Bool.false_ne_true],
    State.memRead_congr rfl rfl, rfl⟩

/-! ### A draw that flips the covered pixels (R127) -/

/-- The draw `d`, begun on the screen `fb`, has flipped exactly the covered pixels, and reports whether one of them was on.
`execDrw_inRange` ties it to `Dxyn`. -/
structure Draw.Flips (d : Draw) (fb : Framebuffer) (covered : Fin 32 → Fin 64 → Prop) : Prop where
  /-- a covered pixel is flipped -/
  flipped : ∀ {py px}, covered py px → pixel d.fb py px = !pixel fb py px
  /-- any other pixel is kept -/
  kept : ∀ {py px}, ¬ covered py px → pixel d.fb py px = pixel fb py px
  /-- the collision is a covered pixel that was on -/
  collision_iff : d.collision = true ↔ ∃ py px, covered py px ∧ pixel fb py px = true

namespace Draw.Flips

variable {d e : Draw} {fb : Framebuffer} {covered : Fin 32 → Fin 64 → Prop}

theorem pixel_iff (h : d.Flips fb covered) (py : Fin 32) (px : Fin 64) :
    pixel d.fb py px = true ↔
      (pixel fb py px = true ∧ ¬ covered py px) ∨ (pixel fb py px = false ∧ covered py px) := by
  by_cases hc : covered py px
  · simp [h.flipped hc, hc]
  · simp [h.kept hc, hc]

theorem flag_of_hit (h : d.Flips fb covered) (hit : ∃ py px, covered py px ∧ pixel fb py px = true) :
    flagByte d.collision = 1 := by
  rw [h.collision_iff.2 hit]
  rfl

theorem flag_of_miss (h : d.Flips fb covered) (miss : ∀ py px, covered py px → pixel fb py px = false) :
    flagByte d.collision = 0 := by
  have hnone : d.collision = false := Bool.eq_false_iff.2 fun hcoll => by
    obtain ⟨py, px, hc, hon⟩ := h.collision_iff.1 hcoll
    exact Bool.false_ne_true ((miss py px hc).symm.trans hon)
  rw [hnone]
  rfl

/-- Two flips of the same pixels cancel (R127 (f)). -/
theorem pixel_twice (h : d.Flips fb covered) (h' : e.Flips d.fb covered) (py : Fin 32) (px : Fin 64) :
    pixel e.fb py px = pixel fb py px := by
  by_cases hc : covered py px
  · rw [h'.flipped hc, h.flipped hc, Bool.not_not]
  · rw [h'.kept hc, h.kept hc]

/-- Covered pixels that were off are on for the second draw (90_conflicts.md C12). -/
theorem flag_of_second (h : d.Flips fb covered) (h' : e.Flips d.fb covered) (hsome : ∃ py px, covered py px)
    (miss : ∀ py px, covered py px → pixel fb py px = false) : flagByte e.collision = 1 := by
  obtain ⟨py, px, hc⟩ := hsome
  exact h'.flag_of_hit ⟨py, px, hc, by rw [h.flipped hc, miss py px hc, Bool.not_false]⟩

end Draw.Flips

/-! ### What `Dxyn` draws -/

/-- The `n` sprite bytes from `I`, in order; `State.loadSpan_spriteBytes` ties them to the model's load. -/
def State.spriteBytes (s : State) (n : Nat) : List Byte := (List.range n).map fun k => s.peek (s.i.toNat + k)

@[simp] theorem State.spriteBytes_length (s : State) (n : Nat) : (s.spriteBytes n).length = n := by
  simp [State.spriteBytes]

theorem State.spriteBytes_getD (s : State) {n k : Nat} (h : k < n) :
    (s.spriteBytes n).getD k 0 = s.peek (s.i.toNat + k) := by
  simp [State.spriteBytes, List.getD_eq_getElem?_getD, h]

theorem State.loadSpan_spriteBytes (s : State) {n : Nat} (hin : n = 0 ∨ s.i.toNat + n ≤ 4096) :
    s.loadSpan s.i.toNat n = some (s.spriteBytes n) := by
  obtain ⟨-, e⟩ | ⟨⟨hne, hout⟩, -⟩ := s.loadSpan_cases s.i.toNat n
  · exact e
  · exact absurd hin (not_or.2 ⟨hne, Nat.not_le.2 hout⟩)

/-- The rows in range cover what the claims say they cover: a byte in range is the one that memory gives (R126). -/
theorem rowsCover_spriteBytes_iff {s : State} {n : Fin 16} (hin : n.val = 0 ∨ s.i.toNat + n.val ≤ 4096) (x y : Reg)
    (py : Fin 32) (px : Fin 64) :
    rowsCover (s.drawColumn x) (s.drawRow y) 0 (s.spriteBytes n.val) py px = true ↔ SpriteCovers s x y n py px := by
  have hread {r : Nat} (hr : r < n.val) : s.memRead (s.i.toNat + r) = some ((s.spriteBytes n.val).getD r 0) := by
    rw [s.spriteBytes_getD hr, s.memRead_of_lt (by omega)]
  rw [rowsCover_iff, State.spriteBytes_length]
  constructor
  · rintro ⟨r, c, hr, hc, rfl, rfl, hbit⟩
    exact ⟨r, c, _, hr, hc, hread hr, hbit, by rw [Nat.zero_add]; rfl, rfl⟩
  · rintro ⟨r, c, b, hr, hc, hb, hbit, hpy, hpx⟩
    obtain rfl : _ = b := Option.some.inj ((hread hr).symm.trans hb)
    exact ⟨r, c, hr, hc, Fin.ext (by rw [hpy, Nat.zero_add]; rfl), Fin.ext hpx, hbit⟩

/-- All that `Dxyn` does in range: it flips the covered pixels and writes the flag last (decision D13). -/
theorem execDrw_inRange {s : State} {n : Fin 16} (hin : n.val = 0 ∨ s.i.toNat + n.val ≤ 4096) (x y : Reg) :
    ∃ d : Draw, execDrw x y n s = .next ({ s with fb := d.fb }.setV flagReg (flagByte d.collision)) ∧
      d.Flips s.fb (SpriteCovers s x y n) := by
  have hlen : (s.spriteBytes n.val).length ≤ 32 := by rw [State.spriteBytes_length]; omega
  obtain ⟨hpixel, hcoll⟩ := Draw.rows_spec ⟨s.fb, false⟩ (s.drawColumn x) (s.drawRow y) 0 (s.spriteBytes n.val) hlen
  have hcover := rowsCover_spriteBytes_iff hin x y
  refine ⟨_, by rw [execDrw, State.base, s.loadSpan_spriteBytes hin], fun {py px} hc => ?_, fun {py px} hc => ?_, ?_⟩
  · rw [hpixel, (hcover py px).2 hc, Bool.xor_true]
  · rw [hpixel, Bool.eq_false_iff.2 (mt (hcover py px).1 hc), Bool.xor_false]
  · simpa only [Bool.false_eq_true, false_or, hcover] using hcoll

theorem execDrw_outOfRange {s : State} {n : Fin 16} (hpos : 0 < n.val) (hout : 4096 < s.i.toNat + n.val) (x y : Reg) :
    execDrw x y n s = .fault .invalidMemoryAccess := by
  obtain ⟨hin, -⟩ | ⟨-, e⟩ := s.loadSpan_cases s.base n.val
  · exact absurd hin (not_or.2 ⟨Nat.ne_of_gt hpos, Nat.not_le.2 hout⟩)
  · rw [execDrw, e, raise]

/-- A completed draw was in range (R153). -/
theorem inRange_of_execDrw {s t : State} {x y : Reg} {n : Fin 16} (h : execDrw x y n s = .next t) :
    n.val = 0 ∨ s.i.toNat + n.val ≤ 4096 := by
  by_contra hout
  rw [execDrw_outOfRange (by omega) (by omega)] at h
  cases h

/-- Settles O34: in range the draw flips the covered pixels and then writes the flag; out of range it reads no sprite. -/
theorem drawFlipsExactlyTheCoveredPixels : Obligations.DrawFlipsExactlyTheCoveredPixels := by
  refine fun x y n s => ⟨fun hin => ?_, fun hpos hout => execDrw_outOfRange hpos hout x y⟩
  obtain ⟨d, hexec, hflips⟩ := execDrw_inRange hin x y
  have hVF := { s with fb := d.fb }.getV_setV_self flagReg (flagByte d.collision)
  exact ⟨_, hexec, hflips.pixel_iff, fun hit => hVF.trans (hflips.flag_of_hit hit),
    fun miss => hVF.trans (hflips.flag_of_miss miss), fun _ hr => State.getV_setV_of_ne _ _ hr,
    State.memRead_congr rfl rfl, rfl⟩

/-- Settles O35: the first draw leaves `I`, memory and, once they are restored, the registers, so the second covers the same
pixels. -/
theorem drawingTwiceRestoresTheScreen : Obligations.DrawingTwiceRestoresTheScreen := by
  intro x y n s t h
  have hin := inRange_of_execDrw h
  obtain ⟨d, hexec, hfirst⟩ := execDrw_inRange hin x y
  obtain rfl : _ = t := Host.Outcome.next.inj (hexec.symm.trans h)
  obtain ⟨e, hexec', hsecond⟩ := execDrw_inRange (s := { s with fb := d.fb }) hin x y
  exact ⟨_, hexec', hfirst.pixel_twice hsecond, fun hsome miss =>
    ⟨(State.getV_setV_self _ flagReg _).trans (hfirst.flag_of_miss miss),
      (State.getV_setV_self _ flagReg _).trans (hfirst.flag_of_second hsecond hsome miss)⟩⟩

end Sys2Proof.Machine
end

section
/-! PROOFS. Key latch and timers (45_keypad_timers.md). The two reads of the key latch are put in terms of its keys, the one
that `Ex9E` and `ExA1` select and the least one that `Fx0A` finds; the timer instructions are one write each, and the tick
follows in the same cycle. -/

namespace Sys2Proof.Machine

/-! ### Key skips (R134 to R136) -/

/-- The key under test has the register modulo 16 for its number (decision D15). -/
theorem keySelected_eq {s : State} {x : Reg} {k : Fin 16} (hk : k.val = (s.getV x).toNat % 16) :
    s.keySelected x = s.keypad[k] := by
  obtain rfl : ((s.getV x).extractLsb' 0 4).toFin = k := Fin.ext (Eq.trans (BitVec.extractLsb'_toNat 0 4 _) hk.symm)
  rfl

/-- Settles O37: both are `skipIf` on the selected key, `ExA1` on its negation. -/
theorem keySkipsTestTheSelectedKey : Obligations.KeySkipsTestTheSelectedKey := by
  intro x k s hk
  have hsel := keySelected_eq hk
  refine ⟨⟨_, rfl, ?_, onlyPc_skipIf s _⟩, ⟨_, rfl, ?_, onlyPc_skipIf s _⟩⟩
  · rw [State.skipIf_pc, hsel]
  · rw [State.skipIf_pc, hsel]
    cases s.keypad[k] <;> rfl

/-! ### Key wait (R137) -/

theorem firstKey_eq_some {s : State} {k : Fin 16} (hon : s.keypad[k] = true)
    (hoff : ∀ j : Fin 16, j < k → s.keypad[j] = false) : s.firstKey = some k.val := by
  refine List.findIdx?_eq_some_iff_getElem.2 ⟨by simp, by simpa using hon, fun j hj => ?_⟩
  simpa using hoff ⟨j, hj.trans k.isLt⟩ hj

theorem exec_ldVxKey_of_pressed {s : State} {k : Fin 16} (x : Reg) (hon : s.keypad[k] = true)
    (hoff : ∀ j : Fin 16, j < k → s.keypad[j] = false) :
    exec (.ldVxKey x) s = .next (s.setV x (BitVec.ofNat 8 k.val)) := by
  rw [exec, execLdVxKey, firstKey_eq_some hon hoff]

theorem exec_ldVxKey_of_none {s : State} (x : Reg) (hoff : ∀ k : Fin 16, s.keypad[k] = false) :
    exec (.ldVxKey x) s = .next { s with pc := s.pc - 2 } := by
  rw [exec, execLdVxKey, (firstKey_eq_none_iff s).2 hoff]

/-- Going back by 2 undoes the advance, so a cycle that waits leaves the tick alone. -/
theorem step_of_key_wait {s : State} {w : Word} {x : Reg} (hf : s.fetch = some w) (hi : decodeWord w = .ldVxKey x)
    (hoff : ∀ k : Fin 16, s.keypad[k] = false) : step s = .next s.tick := by
  have hback : s.advance.pc - 2 = s.pc := BitVec.add_sub_cancel s.pc 2
  rw [step_of_fetch hf, hi, exec_ldVxKey_of_none x (s := s.advance) hoff, hback]
  rfl

/-- Settles O38: the scan finds the least pressed key, or none, and then the cycle is the tick alone. -/
theorem keyWaitTakesTheLeastKeyOrRepeats : Obligations.KeyWaitTakesTheLeastKeyOrRepeats := by
  refine ⟨fun x k s hon hoff => ?_, fun x s hoff => ?_, fun x w s hf hi hoff => ?_⟩
  · have hbyte : (BitVec.ofNat 8 k.val).toNat = k.val := Nat.mod_eq_of_lt (by omega)
    exact ⟨_, exec_ldVxKey_of_pressed x hon hoff, by rw [State.getV_setV_self, hbyte], onlyRegs_setV s x _⟩
  · exact ⟨_, exec_ldVxKey_of_none x hoff, rfl, onlyPc_withPc s _⟩
  · exact ⟨_, step_of_key_wait hf hi hoff, tickTimer_toNat s.dt, tickTimer_toNat s.st, State.memRead_congr rfl rfl, rfl⟩

/-! ### Timer instructions (R138 to R140) -/

theorem soundActive_iff (s : State) : soundActive s = true ↔ s.st.toNat ≠ 0 := by
  rw [soundActive, bne_iff_ne, ne_eq, ← BitVec.toNat_inj]
  rfl

/-- The sound outlasts the tick of a timer above 1 (R27, R84). -/
theorem soundActive_tick_iff (s : State) : soundActive s.tick = true ↔ 1 < s.st.toNat := by
  rw [soundActive_iff, State.tick_st, tickTimer_toNat]
  omega

/-- Settles O39: each behaviour is one write, and the tick takes 1 from the timer that it read or wrote. -/
theorem timerInstructionsMoveTheirTimer : Obligations.TimerInstructionsMoveTheirTimer := by
  refine ⟨fun x s => ⟨?_, ?_, ?_⟩, fun x w s hf => ⟨fun hi => ?_, fun hi => ?_, fun hi => ?_⟩⟩
  · exact ⟨_, rfl, s.getV_setV_self x s.dt, onlyRegs_setV s x _⟩
  · exact ⟨_, rfl, rfl, State.memRead_congr rfl rfl, rfl⟩
  · exact ⟨_, rfl, rfl, State.memRead_congr rfl rfl, rfl⟩
  all_goals rw [step_of_fetch hf, hi]
  · have hVx : (s.advance.setV x s.advance.dt).tick.getV x = s.dt := s.advance.getV_setV_self x s.dt
    exact ⟨_, rfl, hVx, by rw [hVx]; exact tickTimer_toNat s.dt⟩
  · exact ⟨_, rfl, tickTimer_toNat (s.getV x)⟩
  · exact ⟨_, rfl, tickTimer_toNat (s.getV x), soundActive_tick_iff _⟩

end Sys2Proof.Machine
end

section
/-! PROOFS. Faults (60_exceptions.md). `Raises` lists the faults of an instruction by the stack capacity, `SP` and `I` alone,
and `exec_fault_iff` ties it to `exec`; the fault of a cycle is then that of a failed fetch or one of the list. -/

namespace Sys2Proof.Machine

/-! ### The fault of an instruction (R151 to R153) -/

/-- The instruction raises the fault where the stack holds `sp` of `depth` entries and `I` is `base`. That it has no other
argument is why a fault repeats (R156). `exec_fault_iff` ties it to `exec`. -/
inductive Raises (depth sp base : Nat) : Instr → Fault → Prop where
  /-- a call with the stack full (R151) -/
  | overflow (nnn : Addr12) (full : depth ≤ sp) : Raises depth sp base (.call nnn) .stackOverflow
  /-- a return with the stack empty (R152) -/
  | underflow (empty : sp = 0) : Raises depth sp base .ret .stackUnderflow
  /-- a sprite row past the end of memory; no row is no access (R153) -/
  | drw (x y : Reg) (n : Fin 16) (pos : 0 < n.val) (out : 4095 < base + n.val - 1) :
      Raises depth sp base (.drw x y n) .invalidMemoryAccess
  /-- a decimal digit past the end of memory (R153) -/
  | ldB (x : Reg) (out : 4093 < base) : Raises depth sp base (.ldB x) .invalidMemoryAccess
  /-- a register stored past the end of memory (R153) -/
  | storeRegs (x : Reg) (out : 4095 < base + x.val) : Raises depth sp base (.storeRegs x) .invalidMemoryAccess
  /-- a register loaded from past the end of memory (R153) -/
  | loadRegs (x : Reg) (out : 4095 < base + x.val) : Raises depth sp base (.loadRegs x) .invalidMemoryAccess

theorem Raises.exec_eq {s : State} {i : Instr} {f : Fault} (h : Raises s.cfg.stackDepth s.sp s.i.toNat i f) :
    exec i s = .fault f := by
  cases h with
  | overflow nnn full =>
    obtain ⟨room, -⟩ | ⟨-, e⟩ := pushAndJump_cases s.pc (zextAddr nnn) s
    · exact absurd full (Nat.not_le.2 room)
    · exact e
  | underflow empty => exact (returnPopsTheReturnAddress s).2 empty
  | drw x y n pos out => exact execDrw_outOfRange pos (by omega) x y
  | ldB x out => exact (decimalDigitsAreStored x s).2 out
  | storeRegs x out => exact execStoreRegs_outOfRange out
  | loadRegs x out => exact execLoadRegs_outOfRange out

/-- Every instruction completes or raises a listed fault. -/
theorem exec_next_or_raises (i : Instr) (s : State) :
    (∃ t, exec i s = .next t) ∨ ∃ f, Raises s.cfg.stackDepth s.sp s.i.toNat i f := by
  cases i with
  | call nnn =>
    obtain ⟨-, e⟩ | ⟨full, -⟩ := pushAndJump_cases s.pc (zextAddr nnn) s
    · exact .inl ⟨_, e⟩
    · exact .inr ⟨_, .overflow nnn full⟩
  | ret =>
    obtain ⟨-, e⟩ | ⟨empty, -⟩ := popToPc_cases s
    · exact .inl ⟨_, e⟩
    · exact .inr ⟨_, .underflow empty⟩
  | drw x y n =>
    by_cases hin : n.val = 0 ∨ s.i.toNat + n.val ≤ 4096
    · obtain ⟨d, e, -⟩ := execDrw_inRange hin x y
      exact .inl ⟨_, e⟩
    · exact .inr ⟨_, .drw x y n (by omega) (by omega)⟩
  | ldB x =>
    obtain out | hin := Nat.lt_or_ge 4093 s.i.toNat
    · exact .inr ⟨_, .ldB x out⟩
    · obtain ⟨t, _, _, _, e, -⟩ := (decimalDigitsAreStored x s).1 hin
      exact .inl ⟨t, e⟩
  | storeRegs x =>
    obtain out | hin := Nat.lt_or_ge 4095 (s.i.toNat + x.val)
    · exact .inr ⟨_, .storeRegs x out⟩
    · exact .inl ⟨_, execStoreRegs_inRange hin⟩
  | loadRegs x =>
    obtain out | hin := Nat.lt_or_ge 4095 (s.i.toNat + x.val)
    · exact .inr ⟨_, .loadRegs x out⟩
    · obtain ⟨t, e, -⟩ := execLoadRegs_inRange hin
      exact .inl ⟨t, e⟩
  | ldVxKey x =>
    rw [exec, execLdVxKey]
    cases s.firstKey <;> exact .inl ⟨_, rfl⟩
  | _ => exact .inl ⟨_, rfl⟩

theorem exec_fault_iff (i : Instr) (s : State) (f : Fault) :
    exec i s = .fault f ↔ Raises s.cfg.stackDepth s.sp s.i.toNat i f := by
  refine ⟨fun h => ?_, Raises.exec_eq⟩
  obtain ⟨t, e⟩ | ⟨g, hg⟩ := exec_next_or_raises i s
  · cases e.symm.trans h
  · cases hg.exec_eq.symm.trans h
    exact hg

/-! ### The fault of a cycle -/

/-- The advance of `PC` leaves all that a fault depends on. -/
theorem step_fault_iff_raises (s : State) (f : Fault) :
    step s = .fault f ↔ (f = .invalidMemoryAccess ∧ 4094 < s.pc.toNat) ∨
      ∃ w, s.fetch = some w ∧ Raises s.cfg.stackDepth s.sp s.i.toNat (decodeWord w) f := by
  simp only [step_fault_iff, s.fetch_eq_none_iff, and_comm, exec_fault_iff, State.advance_cfg, State.advance_sp,
    State.advance_i]

/-- Settles O11: the cycle's faults are those of `Raises`, where a stack that is at least full is full. -/
theorem cycleFaultsExactlyAsListed : Obligations.CycleFaultsExactlyAsListed := by
  intro s f hsp
  refine ⟨?_, fun h => by rw [h, stateAfter_fault]⟩
  rw [step_fault_iff_raises]
  refine or_congr_right (exists_congr fun w => and_congr_right fun _ => ?_)
  generalize decodeWord w = i
  constructor
  · intro h
    cases h with
    | overflow nnn full => exact .inl ⟨rfl, Nat.le_antisymm hsp full, nnn, rfl⟩
    | underflow empty => exact .inr (.inl ⟨rfl, empty, rfl⟩)
    | drw x y n pos out => exact .inr (.inr ⟨rfl, .inl ⟨x, y, n, rfl, pos, out⟩⟩)
    | ldB x out => exact .inr (.inr ⟨rfl, .inr (.inl ⟨x, rfl, out⟩)⟩)
    | storeRegs x out => exact .inr (.inr ⟨rfl, .inr (.inr (.inl ⟨x, rfl, out⟩))⟩)
    | loadRegs x out => exact .inr (.inr ⟨rfl, .inr (.inr (.inr ⟨x, rfl, out⟩))⟩)
  · rintro (⟨rfl, full, nnn, rfl⟩ | ⟨rfl, empty, rfl⟩ | ⟨rfl, ⟨x, y, n, rfl, pos, out⟩ | ⟨x, rfl, out⟩ |
      ⟨x, rfl, out⟩ | ⟨x, rfl, out⟩⟩)
    · exact .overflow nnn full.ge
    · exact .underflow empty
    · exact .drw x y n pos out
    · exact .ldB x out
    · exact .storeRegs x out
    · exact .loadRegs x out

/-- Settles O12: neither the fetch nor `Raises` reads the key latch or the draw counter. -/
theorem faultRepeatsWhateverTheInputs : Obligations.FaultRepeatsWhateverTheInputs := by
  intro s f h
  refine ⟨?_, fun keys n => ?_⟩
  · rw [act, h, stateAfter_fault]
  · have hfault := (step_fault_iff_raises s f).1 h
    exact (step_fault_iff_raises { s with keypad := keys, draws := n } f).2 hfault

end Sys2Proof.Machine
end

section
/-! PROOFS. Load and boot (70_reset_and_hazards.md). A load that fits is one `pokeList` at `PROG_BASE`, whose bytes and frame
are known; a cycle on zero memory is a cycle on an alias of `CLS`. -/

namespace Sys2Proof.Machine

/-! ### Load (R171) -/

theorem load_of_fits {bytes : List Byte} (h : bytes.length ≤ 3584) (s : State) :
    load bytes s = .next (s.pokeList progBase bytes) := by
  obtain ⟨-, e⟩ | ⟨hlong, -⟩ := load_cases bytes s
  · exact e
  · exact absurd h (Nat.not_le.2 hlong)

theorem load_of_too_large {bytes : List Byte} (h : 3584 < bytes.length) (s : State) :
    load bytes s = .fault .programTooLarge := by
  obtain ⟨hfits, -⟩ | ⟨-, e⟩ := load_cases bytes s
  · exact absurd h (Nat.not_lt.2 hfits)
  · exact e

/-- Settles O48: an image that fits ends by address 4096, so each of its bytes reads back, and the longer one faults. -/
theorem loadCopiesTheImageOrFails : Obligations.LoadCopiesTheImageOrFails := by
  refine fun bytes s => ⟨fun hfits => ?_, fun hlong => ?_⟩
  · refine ⟨_, load_of_fits hfits s, fun k hk => ?_, onlyMemory_pokeList s progBase bytes⟩
    rw [← List.getD_eq_getElem bytes 0 hk]
    exact s.memRead_pokeList_inside progBase bytes k hk (by rw [progBase]; omega)
  · have hfault := load_of_too_large hlong s
    exact ⟨hfault, by rw [act, hfault, stateAfter_fault]⟩

/-! ### A cycle with nothing loaded (R173) -/

theorem step_of_cls {s : State} {w : Word} (hf : s.fetch = some w) (hi : decodeWord w = .cls) :
    step s = .next { s.advance.tick with fb := blankScreen } := by
  rw [step_of_fetch hf, hi]
  rfl

/-- The word 0x0000 is an alias of `CLS` (30_encoding.md R68, decision D9). -/
theorem decodeWord_zeroBytes : decodeWord (wordOfBytes 0 0) = .cls := rfl

/-- Settles O50: the two zero bytes are fetched as an alias of `CLS`, whose cycle is the advance, the blank screen and the
tick. -/
theorem zeroWordTurnsEveryPixelOff : Obligations.ZeroWordTurnsEveryPixelOff := fun s hhi hlo =>
  ⟨_, step_of_cls (State.fetch_of_memRead hhi hlo) decodeWord_zeroBytes, pixel_blankScreen, rfl,
    tickTimer_toNat s.dt, tickTimer_toNat s.st, State.memRead_congr rfl rfl, rfl⟩

end Sys2Proof.Machine
end
